-- ==== Sys2Proof/Word.lean ====
section
/-! DEFINITION. The word types of the engine (spec/00_scope.md rule R7: WORD_BITS 32, FRAME_WORDS 16,
DIGEST_WORDS 5, DIGEST_BYTES 20, CTR_BITS and SL_BITS 64, CMD_BITS 64). All quantities are unsigned (R8). -/

namespace Sys2Proof

/-- A byte, 8 bits. -/
abbrev Byte := BitVec 8

/-- A word, 32 bits (R7, WORD_BITS). -/
abbrev Word := BitVec 32

/-- A 64-bit quantity: the counter, the seed length, the bit length (R7). -/
abbrev DWord := BitVec 64

/-- A command descriptor, 64 bits (R7, CMD_BITS; R91). -/
abbrev Descriptor := BitVec 64

/-- A digest, 5 words (R7, DIGEST_WORDS). -/
abbrev Digest := Vector Word 5

/-- A block (frame), 16 words (R7, FRAME_WORDS). -/
abbrev Block := Vector Word 16

/-- The two frames of a round as one buffer of 32 words (R30, R60 WORK). -/
abbrev Work := Vector Word 32

end Sys2Proof
end

