-- ==== Sys2Proof/Config.lean ====
section
/-! DEFINITION. What is fixed for one piece of hardware and is not state (spec/00_scope.md rule R7,
spec/10_state.md rule R34): the parameters, and the one free value, the entropy source's answers. -/

namespace Sys2Proof

/-- The parameters that spec/00_scope.md rule R7 makes arguments of the model. Every operation that uses one takes
the record, so a law can be stated for an arbitrary one (spec/44_external_primitives.md rule R222); the values this
hardware takes are `Sys2Proof.Machine.params`. -/
structure Params where
  /-- The compression primitive: total, pure, of its operands alone (R220, R221, R222). -/
  compress : Digest → Block → Digest
  /-- The running digest at reset, H_INIT (R227). -/
  hInit : Digest
  /-- The constant added to 8 times the seed length in the trailer, LEN_BIAS_BITS (R165). -/
  lenBiasBits : DWord

/-- FREE VALUE (notes/assumptions/1.md). The answer of the entropy source to the `n`-th request since the model's
state was set up: 20 bytes, index 0 first, under no law (spec/44_external_primitives.md rules R224, R225;
spec/93_implementation_defined.md U1). It has no body: a claim holds for every answer. -/
opaque Config.entropyAnswer : Nat → Vector Byte 20

end Sys2Proof
end

