-- ==== Sys2Proof/Machine/Collaborators.lean ====
section
/-! DEFINITION. The values this hardware takes for its parameters (spec/00_scope.md rule R7): the reference instance of
the compression primitive (spec/44_external_primitives.md rule R223), H_INIT (R227), LEN_BIAS_BITS (R165).
The spec marks the first two as general knowledge, not in its source (notes/assumptions/2.md, 3.md, 4.md). -/

namespace Sys2Proof.Machine

/-- `rotl(x, k)` of R223. -/
def rotl (x : Word) (k : Nat) : Word := (x <<< k) ||| (x >>> (32 - k))

/-! ## The message schedule of R223: words `t - 1` down to `t - 16` are held as a list, newest first. -/

/-- `Wt[t] = rotl(Wt[t-3] ^ Wt[t-8] ^ Wt[t-14] ^ Wt[t-16], 1)`, from the words before it, newest first. -/
def scheduleNext (recent : List Word) : Word :=
  rotl (recent.getD 2 0 ^^^ recent.getD 7 0 ^^^ recent.getD 13 0 ^^^ recent.getD 15 0) 1

/-- `k` further words of the schedule, oldest first. -/
def scheduleFrom : Nat → List Word → List Word
  | 0, _ => []
  | k + 1, recent => scheduleNext recent :: scheduleFrom k (scheduleNext recent :: recent)

/-- The 80 words `Wt[0..79]`. -/
def schedule (m : Block) : List Word := m.toList ++ scheduleFrom 64 m.toList.reverse

/-! ## The 80 steps -/

/-- The working variables `a, b, c, d, e` of R223. -/
structure ShaVars where
  a : Word
  b : Word
  c : Word
  d : Word
  e : Word
deriving DecidableEq, Repr

/-- `f` of step `t`. -/
def shaF (t : Nat) (b c d : Word) : Word :=
  if t ≤ 19 then (b &&& c) ||| (~~~b &&& d)
  else if t ≤ 39 then b ^^^ c ^^^ d
  else if t ≤ 59 then (b &&& c) ||| (b &&& d) ||| (c &&& d)
  else b ^^^ c ^^^ d

/-- `k` of step `t`. -/
def shaK (t : Nat) : Word :=
  if t ≤ 19 then 0x5A827999 else if t ≤ 39 then 0x6ED9EBA1 else if t ≤ 59 then 0x8F1BBCDC else 0xCA62C1D6

/-- Step `t` with schedule word `w`. -/
def shaStep (t : Nat) (w : Word) (v : ShaVars) : ShaVars :=
  { a := rotl v.a 5 + shaF t v.b v.c v.d + v.e + shaK t + w, b := v.a, c := rotl v.b 30, d := v.c, e := v.d }

/-- The steps from step `t` on, one for each word of the list. -/
def shaSteps : Nat → List Word → ShaVars → ShaVars
  | _, [], v => v
  | t, w :: ws, v => shaSteps (t + 1) ws (shaStep t w v)

/-- `compress_SHA1` of R223: the reference instance of the compression primitive. -/
def sha1Compress (d : Digest) (m : Block) : Digest :=
  let v := shaSteps 0 (schedule m) ⟨d[0], d[1], d[2], d[3], d[4]⟩
  #v[d[0] + v.a, d[1] + v.b, d[2] + v.c, d[3] + v.d, d[4] + v.e]

/-- H_INIT of R227. -/
def hInit : Digest := #v[0x67452301, 0xEFCDAB89, 0x98BADCFE, 0x10325476, 0xC3D2E1F0]

/-- LEN_BIAS_BITS of R7 and R165. -/
def lenBiasBits : DWord := 64

/-- The parameters of this hardware (R7): the machine's `exec` and `step` use these. -/
def params : Params := { compress := sha1Compress, hInit := hInit, lenBiasBits := lenBiasBits }

end Sys2Proof.Machine
end

