-- ==== Sys2Proof/Syntax.lean ====
section
/-! DEFINITION. The commands: one constructor per row of spec/opcode_table.json (spec/30_encoding.md rules R92, R93).
The micro-operations have no encoding and no constructor (R102). -/

namespace Sys2Proof

/-- A command of the host. -/
inductive Instr where
  /-- SEED (R92, R145). The payload is part of the command, so LEN is its length by construction (R97). -/
  | seed (payload : List Byte)
  /-- NEXTBYTES with V = 1: a present output buffer of `len` bytes (R93, R190). -/
  | nextBytes (len : BitVec 32)
  /-- NEXTBYTES with V = 0: an absent output buffer. The LEN field is kept, and ignored (R93, R191). -/
  | nextBytesNull (len : BitVec 32)
deriving DecidableEq, Repr

end Sys2Proof
end

