-- ==== Sys2Proof/Machine/State.lean ====
section
/-! DEFINITION. The state of the machine: the engine's registers, exactly the table of spec/10_state.md rule R20, and
what has passed or is still to pass over its ports (spec/00_scope.md rule R4, spec/30_encoding.md rules R97 to R100). -/

namespace Sys2Proof.Machine

/-- The engine state machine (R27): "one of {Uninitialized, Seeded, Expanding}". -/
inductive EngineState where
  | uninitialized
  | seeded
  | expanding
deriving DecidableEq, Repr

/-- The integer coding of `ES` (R7, R27): 2 bits, the value 3 is never produced. -/
def EngineState.code : EngineState → BitVec 2
  | .uninitialized => 0
  | .seeded => 1
  | .expanding => 2

/-- The padding layout (R29): "selected once during finalization". -/
inductive PaddingLayout where
  | singleBlock
  | twoBlock
deriving DecidableEq, Repr

/-- The 1-bit coding of `LAYOUT` (R29). -/
def PaddingLayout.code : PaddingLayout → BitVec 1
  | .singleBlock => 0
  | .twoBlock => 1

/-- The status that ends a command (R98). -/
inductive Status where
  | ok
  | invalidArgument
  | illegalCommand
deriving DecidableEq, Repr

/-- The 2-bit status code (R98): 3 is never produced. -/
def Status.code : Status → BitVec 2
  | .ok => 0
  | .invalidArgument => 1
  | .illegalCommand => 2

/-- The registers of one generator instance: the table of R20, whole. -/
structure Engine where
  /-- `W[0..15]`, the seed block buffer (R21). -/
  w : Block
  /-- `BC`, the next free byte position in `W` (R23). -/
  bc : BitVec 6
  /-- `H[0..4]`, the running digest (R22). -/
  h : Digest
  /-- `SL`, seed bytes absorbed since reset (R24). -/
  sl : DWord
  /-- `CTR`, the expansion round counter (R25). -/
  ctr : DWord
  /-- `OC[0..19]`, the output carry (R26). -/
  oc : Vector Byte 20
  /-- `OCUR`, how many bytes of `OC` have been consumed, 0 to 20 (R26; spec/93_implementation_defined.md U8). -/
  ocur : Fin 21
  /-- `ES` (R27). -/
  es : EngineState
  /-- `HS[0..4]`, `H` as it was at finalization (R28). -/
  hs : Digest
  /-- `SBC`, `BC` as it was at finalization (R28). -/
  sbc : BitVec 6
  /-- `LAYOUT` (R29). -/
  layout : PaddingLayout
  /-- `T[0..31]`, the padded template (R30). -/
  t : Work
  /-- `G[0..31]`, the working frames of a round (R30). -/
  g : Work
deriving DecidableEq, Repr

/-- The reset values of R36. -/
def Engine.reset (P : Params) : Engine where
  w := Vector.replicate 16 0
  bc := 0
  h := P.hInit
  sl := 0
  ctr := 0
  oc := Vector.replicate 20 0
  ocur := 20
  es := .uninitialized
  hs := Vector.replicate 5 0
  sbc := 0
  layout := .singleBlock
  t := Vector.replicate 32 0
  g := Vector.replicate 32 0

/-- What the host puts to the engine (R4): the reset input (R270), or a command, that is a descriptor and the payload
bytes offered with it, one transaction (R97). -/
inductive HostInput where
  | reset
  | command (descriptor : Descriptor) (payload : List Byte)
deriving DecidableEq, Repr

/-- What the engine answers to a command (R98): the bytes on the OUT stream, index 0 first, and then the status. -/
structure Response where
  output : List Byte
  status : Status
deriving DecidableEq, Repr

/-- One request on the compression port (R99): the digest and the block. -/
structure CompressRequest where
  digest : Digest
  block : Block
deriving DecidableEq, Repr

/-- The machine: one engine and its ports. -/
structure State where
  /-- The registers (R20). -/
  engine : Engine
  /-- What the host is still going to issue, oldest first: it offers one at a time (R280). -/
  inputs : List HostInput
  /-- What the host has received, oldest first. -/
  responses : List Response
  /-- What has been asked of the compression primitive, oldest first (R99, R220). -/
  compressRequests : List CompressRequest
  /-- How many requests the entropy source has had (R100, R226). The model's own counter: it picks the free value
  `Config.entropyAnswer` (notes/assumptions/1.md), and a reset of the engine does not set it back. -/
  entropyDraws : Nat
deriving DecidableEq, Repr

/-- A stop with a fault. No constructor: the spec names no event that stops the engine. Its exceptions end the command
with a status and leave the engine ready for the next one (R240, R246); nothing else is an exception (R243). Hence no
step raises a fault. -/
inductive Fault
deriving DecidableEq, Repr

/-- A stop because the input has no meaning in the spec. -/
inductive Refusal where
  /-- An instruction whose meaning is not written yet. Raised by nobody: every arm of `exec` has its meaning.
  Safe: the machine stops where the hardware goes on. -/
  | notModelled (mnemonic : String)
  /-- A SEED descriptor offered with a payload of another length than its LEN field: "not a command at all" (R97).
  Raised by `step` alone, never by the meaning of an instruction (notes/assumptions/8.md).
  Safe: the spec gives such an offer no effect, and no statement about its effect can be proved. -/
  | payloadLengthMismatch
deriving DecidableEq, Repr

/-- The machine right after reset: every register at the value of R36, nothing on the ports. -/
def State.reset : State where
  engine := Engine.reset params
  inputs := []
  responses := []
  compressRequests := []
  entropyDraws := 0

end Sys2Proof.Machine
end

