-- ==== Sys2Proof/Machine/Operands.lean ====
section
/-! DEFINITION. Operand forms: bytes in words, byte order, and the byte accesses to the engine's address spaces
(spec/00_scope.md rules R10, R11; spec/20_memory.md rules R60 to R64; spec/30_encoding.md rule R99).
Every access of the rules is in range, and the spec defines no other (R64, R70). The functions here are total all the same;
what each gives outside its range is a DESIGN CHOICE (notes/assumptions/25.md), said at each, and no command uses it. -/

namespace Sys2Proof.Machine

/-! ## Bytes in a word (R10): lane 0 is the most significant byte -/

/-- The left shift that brings a byte to lane `j`, `24 - 8j`, `j` from 0 to 3; a greater `j` is as 3
(DESIGN CHOICE, notes/assumptions/25.md). -/
def laneShift (j : Nat) : Nat := 24 - 8 * j

/-- Lane `j` of a word: bits `31 - 8j : 24 - 8j`. -/
def lane (w : Word) (j : Nat) : Byte := w.extractLsb' (laneShift j) 8

/-- `zext_32(b) << (24 - 8j)`: a byte brought to lane `j`. -/
def byteInLane (b : Byte) (j : Nat) : Word := b.setWidth 32 <<< laneShift j

/-- A word with lane `j` replaced. -/
def setLane (w : Word) (j : Nat) (b : Byte) : Word := (w &&& ~~~(byteInLane 0xFF j)) ||| byteInLane b j

/-- `b0 ‖ b1 ‖ b2 ‖ b3`. -/
def wordOfBytes (b0 b1 b2 b3 : Byte) : Word := b0 ++ b1 ++ b2 ++ b3

/-- `BE32(w)` (R11). -/
def be32 (w : Word) : List Byte := [lane w 0, lane w 1, lane w 2, lane w 3]

/-- The high half of a 64-bit value, bits 63:32. -/
def hiWord (v : DWord) : Word := v.extractLsb' 32 32

/-- The low half of a 64-bit value, bits 31:0. -/
def loWord (v : DWord) : Word := v.extractLsb' 0 32

/-- `BE64(v)` (R11): `BE64(v)[i] = v[63 - 8i : 56 - 8i]`. -/
def be64 (v : DWord) : List Byte := (List.range 8).map fun i => v.extractLsb' (56 - 8 * i) 8

/-! ## Byte addresses in a word buffer (R61) -/

/-- `byte(B, k)`: lane `k mod 4` of word `k div 4`; zero past the buffer (DESIGN CHOICE, notes/assumptions/25.md). -/
def byteAt {n : Nat} (B : Vector Word n) (k : Nat) : Byte := lane (B.getD (k / 4) 0) (k % 4)

/-- The buffer with byte `k` replaced and every other lane as it was; past the buffer nothing is written
(DESIGN CHOICE, notes/assumptions/25.md). -/
def setByteAt {n : Nat} (B : Vector Word n) (k : Nat) (b : Byte) : Vector Word n :=
  B.setIfInBounds (k / 4) (setLane (B.getD (k / 4) 0) (k % 4) b)

/-- `MemRead` on a word buffer (R64): bytes `a` to `a + n - 1`. There are `n` of them always: those past the buffer are
zero (DESIGN CHOICE, notes/assumptions/25.md). -/
def readBytes {w : Nat} (B : Vector Word w) (a n : Nat) : List Byte :=
  (List.range n).map fun i => byteAt B (a + i)

/-- `MemWrite` on a word buffer (R64): exactly the lanes from byte `a` on, one for each byte of the sequence; bytes past the
buffer are dropped (DESIGN CHOICE, notes/assumptions/25.md). -/
def writeBytes {w : Nat} (B : Vector Word w) : Nat → List Byte → Vector Word w
  | _, [] => B
  | a, b :: bs => writeBytes (setByteAt B a b) (a + 1) bs

/-- The first frame of a pair, words 0 to 15. -/
def frame1 (g : Work) : Block := Vector.ofFn fun i : Fin 16 => g[i.val]

/-- The second frame of a pair, words 16 to 31. -/
def frame2 (g : Work) : Block := Vector.ofFn fun i : Fin 16 => g[16 + i.val]

/-- The 20 bytes of a digest, word 0 first, each word most significant byte first (R62, R196). -/
def digestBytes (d : Digest) : Vector Byte 20 :=
  #v[lane d[0] 0, lane d[0] 1, lane d[0] 2, lane d[0] 3,
     lane d[1] 0, lane d[1] 1, lane d[1] 2, lane d[1] 3,
     lane d[2] 0, lane d[2] 1, lane d[2] 2, lane d[2] 3,
     lane d[3] 0, lane d[3] 1, lane d[3] 2, lane d[3] 3,
     lane d[4] 0, lane d[4] 1, lane d[4] 2, lane d[4] 3]

/-! ## The address spaces (R60) -/

/-- The spaces that are registers of the engine. -/
inductive Space where
  | frame
  | workT
  | workG
  | carry
deriving DecidableEq, Repr

/-- The size of a space in bytes (R60). -/
def Space.size : Space → Nat
  | .frame => 64
  | .workT => 128
  | .workG => 128
  | .carry => 20

/-- `MemRead(S, a, n)` (R64). Past the space (DESIGN CHOICE, notes/assumptions/25.md): on FRAME and WORK the bytes read are
zero; on CARRY the sequence ends where the space does, so it has fewer than `n` bytes. -/
def Engine.memRead (e : Engine) (sp : Space) (a n : Nat) : List Byte :=
  match sp with
  | .frame => readBytes e.w a n
  | .workT => readBytes e.t a n
  | .workG => readBytes e.g a n
  | .carry => (e.oc.toList.drop a).take n

/-- Bytes of the carry replaced from index `a` on (R64); those past index 19 are dropped
(DESIGN CHOICE, notes/assumptions/25.md). -/
def writeCarry (oc : Vector Byte 20) : Nat → List Byte → Vector Byte 20
  | _, [] => oc
  | a, b :: bs => writeCarry (oc.setIfInBounds a b) (a + 1) bs

/-- `MemWrite(S, a, n, v)` (R64), `n` being the length of `v`. Bytes past the space are dropped
(DESIGN CHOICE, notes/assumptions/25.md). -/
def Engine.memWrite (e : Engine) (sp : Space) (a : Nat) (v : List Byte) : Engine :=
  match sp with
  | .frame => { e with w := writeBytes e.w a v }
  | .workT => { e with t := writeBytes e.t a v }
  | .workG => { e with g := writeBytes e.g a v }
  | .carry => { e with oc := writeCarry e.oc a v }

/-- `MemRead(IN, a, n)` (R64) on the payload of the SEED command in progress, and the bytes `src[a..a + n)` of any source
of APPEND. The sequence ends where the source does, so past it there are fewer than `n` bytes
(DESIGN CHOICE, notes/assumptions/25.md). -/
def readIn (payload : List Byte) (a n : Nat) : List Byte := (payload.drop a).take n

/-- `MemWrite(OUT, a, n, v)` (R64) on the bytes of the output buffer written so far, which DRAIN and SLICE write in order
(R60), so `a` is their number and the bytes follow them. A greater `a` is as their number, so no gap is left, and LEN,
which is not known here, bounds nothing (DESIGN CHOICE, notes/assumptions/25.md). -/
def writeOut (out : List Byte) (a : Nat) (v : List Byte) : List Byte := out.take a ++ v ++ out.drop (a + v.length)

/-! ## The compression port (R99) -/

/-- Words one after another, the first at the most significant end. -/
def concatWords : (ws : List Word) → BitVec (32 * ws.length)
  | [] => 0
  | w :: ws => (w ++ concatWords ws).cast (by simp [List.length_cons]; omega)

/-- The 672-bit serialisation of a request, `D[0] ‖ ... ‖ D[4] ‖ M[0] ‖ ... ‖ M[15]`. -/
def CompressRequest.bits (r : CompressRequest) : BitVec 672 :=
  (concatWords (r.digest.toList ++ r.block.toList)).cast (by simp)

/-- The 160-bit serialisation of a response, `R[0] ‖ ... ‖ R[4]`. -/
def responseBits (d : Digest) : BitVec 160 := (concatWords d.toList).cast (by simp)

end Sys2Proof.Machine
end

