-- ==== Sys2Proof/Machine/Flags.lean ====
section
/-! DEFINITION. The four predicates of spec/10_state.md rule R33. The engine has no flag register and no condition
codes: each predicate is a function of the state, except LAYOUT, which is stored (R29). -/

namespace Sys2Proof.Machine

/-- MIDWORD(c): the byte cursor sits inside a word. -/
def midWord (c : Nat) : Bool := c % 4 != 0

/-- FULL: the cursor that APPEND returned is at the end of the 16-word buffer. -/
def full (c : Nat) : Bool := c == 64

/-- CARRY_LEFT: the number of undelivered carry bytes. -/
def Engine.carryLeft (e : Engine) : Nat := 20 - e.ocur.val

/-- TWO_BLOCK on a partial-frame byte count: at 48 or more the 17 bytes of counter, flag and length do not fit (R163). -/
def twoBlock (sbc : BitVec 6) : Bool := decide (48 ≤ sbc.toNat)

/-- The layout that finalization selects for a byte count (R163). -/
def layoutOf (sbc : BitVec 6) : PaddingLayout := if twoBlock sbc then .twoBlock else .singleBlock

end Sys2Proof.Machine
end

