-- ==== Sys2Proof/Machine/Ops.lean ====
section
/-! DEFINITION. The named operations on the machine's state and ports: ending a command, taking an exception, reset,
the two collaborator ports, the writes of the cursor and the counter. -/

namespace Sys2Proof.Machine

/-! ## Ending a command (spec/30_encoding.md rule R98) -/

/-- A command ends with its output bytes and then its status. -/
def State.respond (s : State) (output : List Byte) (status : Status) : State :=
  { s with responses := s.responses ++ [⟨output, status⟩] }

/-! ## Exceptions (spec/60_exceptions.md rules R240 to R247) -/

/-- The two exceptions of the engine (R240). -/
inductive Exception where
  | invalidArgument
  | illegalCommand
deriving DecidableEq, Repr

/-- The status of an exception (R240). -/
def Exception.status : Exception → Status
  | .invalidArgument => .invalidArgument
  | .illegalCommand => .illegalCommand

/-- Taking an exception (R246): it "saves nothing and changes nothing"; the command ends with the exception's status and
no output byte, with every register as it was, and the engine is ready for the next command. There is no return from
an exception (R247): no trap context exists. -/
def State.raise (s : State) (x : Exception) : State := s.respond [] x.status

/-! ## Reset (spec/70_reset_and_hazards.md rules R270 to R272) -/

/-- The reset input: every register takes the value of R36. No status is returned (R272). -/
def State.resetEngine (P : Params) (s : State) : State := { s with engine := Engine.reset P }

/-! ## The collaborators -/

/-- A call of the compression primitive (R99, R220): the request goes out on the port, the answer comes back at once. -/
def State.compress (P : Params) (d : Digest) (m : Block) (s : State) : Digest × State :=
  (P.compress d m, { s with compressRequests := s.compressRequests ++ [⟨d, m⟩] })

/-- A request for 20 bytes to the entropy source (R100, R224): the answer is a free value, the next one unused. -/
def State.entropy (s : State) : Vector Byte 20 × State :=
  (Config.entropyAnswer s.entropyDraws, { s with entropyDraws := s.entropyDraws + 1 })

/-! ## Register writes -/

/-- The state with another engine. -/
def State.setEngine (s : State) (e : Engine) : State := { s with engine := e }

/-- `OCUR <- m` (R26); the callers' `m` is at most 20, so nothing wraps; a greater `m` is taken
modulo 21 (DESIGN CHOICE, notes/assumptions/25.md). -/
def Engine.setOcur (e : Engine) (m : Nat) : Engine := { e with ocur := Fin.ofNat 21 m }

/-- `CTR <- CTR + 1` modulo 2^64 (R25, R198). -/
def Engine.stepCounter (e : Engine) : Engine := { e with ctr := e.ctr + 1 }

/-- `SL <- SL + n` modulo 2^64 (R24, R143). -/
def Engine.addSeedLength (e : Engine) (n : Nat) : Engine := { e with sl := e.sl + BitVec.ofNat 64 n }

end Sys2Proof.Machine
end

