-- ==== Sys2Proof/Machine/Packer.lean ====
section
/-! DEFINITION. The Block Packer: APPEND in its three phases (spec/40_block_packer.md rules R120 to R129).
A buffer is a vector of words; a cursor is a byte address in it. Each phase takes the source bytes still to be written
and the cursor, and gives the buffer, the bytes left and the cursor after it.
Past the buffer's capacity, `cur + n > 4 * NW`, the spec gives APPEND no meaning (R127, U9), and every caller keeps within
it. DESIGN CHOICE (notes/assumptions/24.md, unsafe for claims about such calls): the three phases write nothing to a word
that the buffer does not have, read it as zero, and advance the cursor all the same. -/

namespace Sys2Proof.Machine

/-- `packPartialWord(e, o, v)` (R125): the bytes of `v` ORed into `e` from lane `o` on, for
`o + m ≤ 4`; a byte past lane 3 goes into lane 3 (DESIGN CHOICE, notes/assumptions/25.md). -/
def packPartialWord (e : Word) : Nat → List Byte → Word
  | _, [] => e
  | o, b :: bs => packPartialWord (e ||| byteInLane b o) (o + 1) bs

/-- Phase (a), mid-word fill (R121): while the cursor is inside a word, bytes are ORed in one at a time.
Into lanes that are not zero it ORs (DEDUCED, notes/assumptions/11.md); a word past the capacity is not written
(DESIGN CHOICE, notes/assumptions/24.md). -/
def appendMidWord {n : Nat} (B : Vector Word n) : List Byte → Nat → Vector Word n × List Byte × Nat
  | [], c => (B, [], c)
  | b :: bs, c =>
    if midWord c then
      appendMidWord (B.setIfInBounds (c / 4) (B.getD (c / 4) 0 ||| byteInLane b (c % 4))) bs (c + 1)
    else (B, b :: bs, c)

/-- Phase (b), whole words (R122): while four or more bytes remain, each four are assigned to a word.
A word past the capacity is not written (DESIGN CHOICE, notes/assumptions/24.md). -/
def appendWords {n : Nat} (B : Vector Word n) : List Byte → Nat → Vector Word n × List Byte × Nat
  | b0 :: b1 :: b2 :: b3 :: bs, c => appendWords (B.setIfInBounds (c / 4) (wordOfBytes b0 b1 b2 b3)) bs (c + 4)
  | bs, c => (B, bs, c)

/-- Phase (c), trailing partial word (R123): the 1 to 3 bytes left are assigned to a fresh word, its other lanes zero.
A word past the capacity is not written (DESIGN CHOICE, notes/assumptions/24.md). -/
def appendTail {n : Nat} (B : Vector Word n) (bs : List Byte) (c : Nat) : Vector Word n × Nat :=
  if bs = [] then (B, c) else (B.setIfInBounds (c / 4) (packPartialWord 0 0 bs), c + bs.length)

/-- The three phases strictly in order (R124) on the bytes to be appended. -/
def appendBytes {n : Nat} (B : Vector Word n) (bytes : List Byte) (cur : Nat) : Vector Word n × Nat :=
  let a := appendMidWord B bytes cur
  let b := appendWords a.1 a.2.1 a.2.2
  appendTail b.1 b.2.1 b.2.2

/-- APPEND (R120, R124): `src[from..to)` is written from byte address `cur` on; the new cursor comes back,
`cur + n` past the capacity too (DESIGN CHOICE, notes/assumptions/24.md). Past the end of `src` there are no bytes to write,
and with `from > to` there are none (DESIGN CHOICE, notes/assumptions/25.md; R120 has no such call). -/
def append {n : Nat} (B : Vector Word n) (src : List Byte) (first last cur : Nat) : Vector Word n × Nat :=
  appendBytes B (readIn src first (last - first)) cur

end Sys2Proof.Machine
end

