-- ==== Sys2Proof/Machine/Seed.lean ====
section
/-! DEFINITION. The Seed Accumulator: ABSORB, and the command SEED (spec/41_seed_accumulator.md rules R140 to R147). -/

namespace Sys2Proof.Machine

/-- One pass of ABSORB's loop (R140) on the chunk that fits the frame: APPEND it at `BC`; a block that is now full is
compressed at once into `H` and `BC` starts again at 0 (R141). `W` is not cleared. -/
def absorbChunk (P : Params) (bytes : List Byte) (ch : Nat) (s : State) : State :=
  let e := s.engine
  let r := append e.w bytes 0 ch e.bc.toNat
  if full r.2 then
    let c := s.compress P e.h r.1
    c.2.setEngine { e with w := r.1, h := c.1, bc := 0 }
  else s.setEngine { e with w := r.1, bc := BitVec.ofNat 6 r.2 }

/-- ABSORB's loop (R140) over the bytes not yet absorbed. Each pass takes `min(n - i, 64 - BC)` bytes, at least one;
the first argument bounds the passes. -/
def absorbLoop (P : Params) : Nat → List Byte → State → State
  | 0, _, s => s
  | fuel + 1, bytes, s =>
    if bytes = [] then s
    else
      let ch := min bytes.length (64 - s.engine.bc.toNat)
      absorbLoop P fuel (bytes.drop ch) (absorbChunk P bytes ch s)

/-- ABSORB (R140): the loop, and then `SL <- SL + n` (R143). Empty input changes nothing (R144). -/
def absorb (P : Params) (bytes : List Byte) (s : State) : State :=
  let s1 := absorbLoop P bytes.length bytes s
  s1.setEngine (s1.engine.addSeedLength bytes.length)

/-- The state change of a SEED that brings bytes (R145, R146): absorb, drop the carry, and ES is Seeded. -/
def seedBytes (P : Params) (payload : List Byte) (s : State) : State :=
  let s1 := absorb P payload s
  s1.setEngine { s1.engine.setOcur 20 with es := .seeded }

/-- SEED (R145). With LEN = 0 nothing changes (R147). It cannot fail. -/
def seedCommand (P : Params) (payload : List Byte) (s : State) : State :=
  if payload.length = 0 then s.respond [] .ok else (seedBytes P payload s).respond [] .ok

/-- The meaning of SEED. -/
def execSeed (payload : List Byte) (s : State) : Host.Outcome State Fault Refusal := .next (seedCommand params payload s)

end Sys2Proof.Machine
end

