-- ==== Sys2Proof/Machine/Finalize.lean ====
section
/-! DEFINITION. Finalization: SELFSEED and FINALIZE (spec/42_finalization.md rules R160 to R168). -/

namespace Sys2Proof.Machine

/-- SELFSEED on a given answer of the entropy source (R161): it is absorbed like any seed. `ES` is not written. -/
def selfSeedWith (P : Params) (answer : Vector Byte 20) (s : State) : State := absorb P answer.toList s

/-- SELFSEED (R161): one request for 20 bytes, absorbed in the order received. -/
def selfSeed (P : Params) (s : State) : State :=
  let r := s.entropy
  selfSeedWith P r.1 r.2

/-- The template before its trailer (R164): all words zero, then the seed bytes of the partial frame copied in. -/
def template (w : Block) (sbc : BitVec 6) : Work :=
  writeBytes (Vector.replicate 32 0) 0 (readBytes w 0 sbc.toNat)

/-- LENBITS (R165): `(SL << 3) + LEN_BIAS_BITS` modulo 2^64. -/
def lenBits (P : Params) (sl : DWord) : DWord := (sl <<< 3) + P.lenBiasBits

/-- `L` of R166: the first word of the last frame. -/
def lastFrameStart : PaddingLayout → Nat
  | .singleBlock => 0
  | .twoBlock => 16

/-- The trailer placed in words 14 and 15 of the last frame, high half first (R166). -/
def placeTrailer (t : Work) (layout : PaddingLayout) (v : DWord) : Work :=
  (t.setIfInBounds (lastFrameStart layout + 14) (hiWord v)).setIfInBounds (lastFrameStart layout + 15) (loWord v)

/-- FINALIZE (R168): snapshot (R162), layout (R163), template (R164), trailer (R165, R166), `ES <- Expanding`. -/
def finalize (P : Params) (e : Engine) : Engine :=
  { e with
    hs := e.h
    sbc := e.bc
    layout := layoutOf e.bc
    t := placeTrailer (template e.w e.bc) (layoutOf e.bc) (lenBits P e.sl)
    es := .expanding }

/-- What a NEXTBYTES with bytes to deliver does first (R160, R190): nothing when Expanding; FINALIZE when Seeded;
SELFSEED and then FINALIZE when Uninitialized. -/
def beginOutput (P : Params) (s : State) : State :=
  match s.engine.es with
  | .uninitialized =>
    let s1 := selfSeed P s
    s1.setEngine (finalize P s1.engine)
  | .seeded => s.setEngine (finalize P s.engine)
  | .expanding => s

end Sys2Proof.Machine
end

