-- ==== Sys2Proof/Machine/NextBytes.lean ====
section
/-! DEFINITION. The Expansion Generator: DRAIN, ROUND, SERIALIZE, SLICE, and the command NEXTBYTES with a present and
with an absent buffer (spec/43_expansion.md rules R190 to R200). -/

namespace Sys2Proof.Machine

/-- The working frames of a round (R194): a fresh copy of `T`, the counter APPENDed at `SBC`, the flag byte after it. -/
def roundFrames (e : Engine) : Work :=
  let r1 := append e.t (be64 e.ctr) 0 8 e.sbc.toNat
  let r2 := append r1.1 [0x80] 0 1 r1.2
  r2.1

/-- The digest of a round (R195): one compression from `HS`, and in the TwoBlock layout a second one chained to it. -/
def roundDigest (P : Params) (g : Work) (s : State) : Digest × State :=
  let r1 := s.compress P s.engine.hs (frame1 g)
  match s.engine.layout with
  | .singleBlock => r1
  | .twoBlock => r1.2.compress P r1.1 (frame2 g)

/-- SERIALIZE (R196): the digest's 20 bytes are the new carry, none of them delivered. -/
def serialize (d : Digest) (e : Engine) : Engine := { e with oc := digestBytes d, ocur := 0 }

/-- ROUND (R194, R195, R196). -/
def round (P : Params) (s : State) : State :=
  let g := roundFrames s.engine
  let r := roundDigest P g s
  r.2.setEngine (serialize r.1 { r.2.engine with g := g })

/-- DRAIN (R193): as many undelivered carry bytes as are wanted go out first; the bytes and the engine after it. -/
def drain (len : Nat) (e : Engine) : List Byte × Engine :=
  let m := min e.carryLeft len
  (e.memRead .carry e.ocur.val m, e.setOcur (e.ocur.val + m))

/-- One pass of the round loop (R190): a ROUND, a SLICE of up to `want` bytes (R197), the counter step (R198). -/
def roundPass (P : Params) (want : Nat) (s : State) : List Byte × State :=
  let s1 := round P s
  let m := min 20 want
  (s1.engine.memRead .carry 0 m, s1.setEngine (s1.engine.setOcur m).stepCounter)

/-- The round loop of R190, `while o < LEN`, with `o` the number of bytes in `out`. Each pass delivers at least one
byte; the first argument bounds the passes. -/
def roundLoop (P : Params) (len : Nat) : Nat → List Byte → State → List Byte × State
  | 0, out, s => (out, s)
  | fuel + 1, out, s =>
    if out.length < len then
      let r := roundPass P (len - out.length) s
      roundLoop P len fuel (writeOut out out.length r.1) r.2
    else (out, s)

/-- Output of `len` bytes, `len > 0` (R190): finalization if it is due, DRAIN, the rounds. -/
def produce (P : Params) (len : Nat) (s : State) : List Byte × State :=
  let s1 := beginOutput P s
  let d := drain len s1.engine
  roundLoop P len len (writeOut [] 0 d.1) (s1.setEngine d.2)

/-- NEXTBYTES(V, LEN) (R190), its tests in the order of R245: the absent buffer, the empty one, the rest. -/
def nextBytesCommand (P : Params) (present : Bool) (len : Nat) (s : State) : State :=
  if present = false then s.raise .invalidArgument
  else if len = 0 then s.respond [] .ok
  else
    let r := produce P len s
    r.2.respond r.1 .ok

/-- The meaning of NEXTBYTES with a present buffer. -/
def execNextBytes (len : BitVec 32) (s : State) : Host.Outcome State Fault Refusal :=
  .next (nextBytesCommand params true len.toNat s)

/-- The meaning of NEXTBYTES with an absent buffer (R191): InvalidArgument, whatever LEN holds. -/
def execNextBytesNull (len : BitVec 32) (s : State) : Host.Outcome State Fault Refusal :=
  .next (nextBytesCommand params false len.toNat s)

end Sys2Proof.Machine
end

