-- ==== Sys2Proof/Machine/Dispatch.lean ====
section
/-! DEFINITION. The one match over the commands: each arm is one call of that command's meaning. -/

namespace Sys2Proof.Machine

/-- What a command does (spec/30_encoding.md rule R95, last column). -/
def exec (i : Instr) (s : State) : Host.Outcome State Fault Refusal :=
  match i with
  | .seed payload => Sys2Proof.Machine.execSeed payload s
  | .nextBytes len => Sys2Proof.Machine.execNextBytes len s
  | .nextBytesNull len => Sys2Proof.Machine.execNextBytesNull len s

end Sys2Proof.Machine
end

