-- ==== Sys2Proof/WellFormed.lean ====
section
/-! DEFINITION. Which commands a descriptor can spell (spec/30_encoding.md rules R91, R94, R97). -/

namespace Sys2Proof

/-- The one check: a SEED payload's length fits the 32-bit LEN field (R91, R94: a longer seed is given as several
SEED commands). NEXTBYTES carries a LEN of 32 bits by its type. -/
def Instr.wellFormed : Instr → Bool
  | .seed payload => decide (payload.length < 2 ^ 32)
  | .nextBytes _ => true
  | .nextBytesNull _ => true

end Sys2Proof
end

