-- ==== Sys2Proof/Decode.lean ====
section
/-! DEFINITION. The decoder and the encoder of the command descriptor (spec/30_encoding.md rules R91 to R97).
Both are written from the field table of R91; bit 63 is the most significant bit. -/

namespace Sys2Proof

/-! ## The fields of a descriptor (R91) -/

/-- OP, bits 63:60. -/
def descOp (d : Descriptor) : BitVec 4 := d.extractLsb' 60 4

/-- V, bit 59. -/
def descV (d : Descriptor) : BitVec 1 := d.extractLsb' 59 1

/-- RSV, bits 58:32. -/
def descRsv (d : Descriptor) : BitVec 27 := d.extractLsb' 32 27

/-- LEN, bits 31:0, an unsigned byte count (R94). -/
def descLen (d : Descriptor) : BitVec 32 := d.extractLsb' 0 32

/-! ## Decode -/

/-- Why a transaction spells no command. -/
inductive Reject where
  /-- The descriptor decodes to ILLEGAL (R95, R96): answered with status IllegalCommand (R242). -/
  | illegalDescriptor
  /-- A SEED descriptor came with a payload of another length than LEN: "not a command at all" (R97). -/
  | payloadLength
deriving DecidableEq, Repr

/-- `decode(d)` of R95 on a descriptor and the payload bytes that the host offers with it. Total: every descriptor
and every payload either is an instruction or is rejected by name. Bytes offered with a NEXTBYTES or with an illegal
descriptor are not read (R68, R96, R97). -/
def decode (d : Descriptor) (payload : List Byte) : Except Reject Instr :=
  if descRsv d ≠ 0 then .error .illegalDescriptor
  else if descOp d = 0x1 ∧ descV d = 0 then
    if payload.length = (descLen d).toNat then .ok (.seed payload) else .error .payloadLength
  else if descOp d = 0x2 ∧ descV d = 1 then .ok (.nextBytes (descLen d))
  else if descOp d = 0x2 ∧ descV d = 0 then .ok (.nextBytesNull (descLen d))
  else .error .illegalDescriptor

/-! ## Encode -/

/-- A descriptor from its four fields, most significant first (R91). -/
def packDescriptor (op : BitVec 4) (v : BitVec 1) (rsv : BitVec 27) (len : BitVec 32) : Descriptor :=
  op ++ v ++ rsv ++ len

/-- The descriptor of a command (R92, R93). -/
def encodeDescriptor : Instr → Descriptor
  | .seed payload => packDescriptor 0x1 0 0 (BitVec.ofNat 32 payload.length)
  | .nextBytes len => packDescriptor 0x2 1 0 len
  | .nextBytesNull len => packDescriptor 0x2 0 0 len

/-- The payload bytes that follow the descriptor: for SEED only (R97). -/
def encodePayload : Instr → List Byte
  | .seed payload => payload
  | .nextBytes _ => []
  | .nextBytesNull _ => []

/-- The whole transaction of a command on the host-to-engine side (R97). -/
def encode (i : Instr) : Descriptor × List Byte := (encodeDescriptor i, encodePayload i)

/-! ## An instruction given as one number, numbered as spec/opcode_table.json numbers its bits -/

/-- Payload byte `k` of a transaction given as one number: the bytes count on from the 64 bits of the descriptor. -/
def tablePayloadByte (w k : Nat) : Byte := BitVec.ofNat 8 (w >>> (64 + 8 * k))

/-- The transaction whose bits are `w`: bits 63:0 are the descriptor, and the payload bytes of a SEED count on from it,
byte index 0 first. Bits at and above `nbits` are 0, so a row of 64 bits has a payload of LEN zero bytes. -/
def tableTransaction (nbits w : Nat) : Descriptor × List Byte :=
  let bits := w % 2 ^ nbits
  let d : Descriptor := BitVec.ofNat 64 bits
  let n := if descOp d = 0x1 then (descLen d).toNat else 0
  (d, (List.range n).map (tablePayloadByte bits))

/-- What the decoder reads from the instruction whose bits are `w`. -/
def decodeTableWord (nbits w : Nat) : Option Instr :=
  match decode (tableTransaction nbits w).1 (tableTransaction nbits w).2 with
  | .ok i => some i
  | .error _ => none

end Sys2Proof
end

