-- ==== Sys2Proof/Machine/Fetch.lean ====
section
/-! DEFINITION. Accepting the next input of the host (spec/00_scope.md rule R4, spec/10_state.md rule R32,
spec/30_encoding.md rules R95 to R97). The engine has no program counter and fetches no instructions (R32, R74): the
host puts a transaction to the command port, which is consumed when the command is accepted and stored nowhere (R74). -/

namespace Sys2Proof.Machine

/-- What the engine finds on its input ports at the start of a step. -/
inductive Accepted where
  /-- The host offers nothing: the engine waits for a command (R251, R270). -/
  | idle
  /-- The reset input is asserted; the state has the input consumed. -/
  | reset (s : State)
  /-- A command that decodes; the state has the transaction consumed. -/
  | command (i : Instr) (s : State)
  /-- A descriptor that spells no command (R96); the state has it consumed. -/
  | illegal (s : State)
  /-- A SEED descriptor with a payload of another length: not a command at all (R97). -/
  | notACommand
deriving DecidableEq, Repr

/-- A state with the oldest input consumed. -/
def State.consumed (s : State) (rest : List HostInput) : State := { s with inputs := rest }

/-- The oldest input of the host, decoded. -/
def acceptInput (s : State) : Accepted :=
  match s.inputs with
  | [] => .idle
  | .reset :: rest => .reset (s.consumed rest)
  | .command d payload :: rest =>
    match decode d payload with
    | .ok i => .command i (s.consumed rest)
    | .error .illegalDescriptor => .illegal (s.consumed rest)
    | .error .payloadLength => .notACommand

/-- The reset step (R270): one atomic step available to the host at any time. -/
def resetStep (s : State) : State := s.resetEngine params

/-- The step on an illegal descriptor (R96, R242): status IllegalCommand, no state change, no payload consumed. -/
def illegalStep (s : State) : State := s.raise .illegalCommand

/-- A transaction put before all other inputs of the host. -/
def State.offer (s : State) (d : Descriptor) (payload : List Byte) : State :=
  { s with inputs := .command d payload :: s.inputs }

end Sys2Proof.Machine
end

