-- ==== Sys2Proof/Machine/Step.lean ====
section
/-! DEFINITION. One step of the machine: one complete host operation, that is a command or a reset
(spec/00_scope.md rule R3), or nothing while the host offers nothing. -/

namespace Sys2Proof.Machine

/-- One step. -/
def step (s : State) : Host.Outcome State Fault Refusal :=
  match acceptInput s with
  | .idle => .next s
  | .reset s' => .next (resetStep s')
  | .command i s' => exec i s'
  | .illegal s' => .next (illegalStep s')
  | .notACommand => .refused .payloadLengthMismatch

/-- `s` with the instruction whose bits are `w` put where `step` takes its next input: at the head of the host's inputs
(notes/assumptions/7.md). -/
def State.withFetchWord (s : State) (nbits w : Nat) : State :=
  s.offer (tableTransaction nbits w).1 (tableTransaction nbits w).2

end Sys2Proof.Machine
end

