-- ==== Sys2Proof/Machine/Listing.lean ====
section
/-! DEFINITION. The listing syntax (spec/30_encoding.md rule R101): one line of text is one input of the host. A line is a
list of characters; a `;` starts a comment; fields stand apart by blanks. There are no pseudo-instructions. -/

namespace Sys2Proof.Machine

/-- The value of a hex digit, in either case. -/
def hexDigit (c : Char) : Option Nat :=
  if 48 ≤ c.toNat ∧ c.toNat ≤ 57 then some (c.toNat - 48)
  else if 97 ≤ c.toNat ∧ c.toNat ≤ 102 then some (c.toNat - 87)
  else if 65 ≤ c.toNat ∧ c.toNat ≤ 70 then some (c.toNat - 55)
  else none

/-- `<hex bytes>`: two digits per byte, first byte first. -/
def hexBytes : List Char → Option (List Byte)
  | [] => some []
  | [_] => none
  | a :: b :: cs =>
    match hexDigit a, hexDigit b, hexBytes cs with
    | some x, some y, some bs => some (BitVec.ofNat 8 (16 * x + y) :: bs)
    | _, _, _ => none

/-- Decimal digits read on from a value. -/
def decimalFrom : Nat → List Char → Option Nat
  | v, [] => some v
  | v, c :: cs => if 48 ≤ c.toNat ∧ c.toNat ≤ 57 then decimalFrom (10 * v + (c.toNat - 48)) cs else none

/-- `<n>`: at least one decimal digit. -/
def decimal (cs : List Char) : Option Nat := if cs = [] then none else decimalFrom 0 cs

/-- The fields of a line: `field` holds the characters of the field begun, last first. -/
def fieldsFrom : List Char → List Char → List (List Char)
  | field, [] => if field = [] then [] else [field.reverse]
  | field, c :: cs =>
    if c = ';' then (if field = [] then [] else [field.reverse])
    else if c = ' ' then (if field = [] then fieldsFrom [] cs else field.reverse :: fieldsFrom [] cs)
    else fieldsFrom (c :: field) cs

/-- A command as the host issues it (R97). -/
def HostInput.ofInstr (i : Instr) : HostInput := .command (encodeDescriptor i) (encodePayload i)

/-- A command that a descriptor can spell (R94). -/
def inputOfInstr (i : Instr) : Option HostInput := if i.wellFormed then some (.ofInstr i) else none

/-- The input that the fields of a line spell (R101). -/
def inputOfFields : List (List Char) → Option HostInput
  | [['r', 'e', 's', 'e', 't']] => some .reset
  | [['s', 'e', 'e', 'd']] => some (.ofInstr (.seed []))
  | [['s', 'e', 'e', 'd'], hex] => (hexBytes hex).bind fun payload => inputOfInstr (.seed payload)
  | [['n', 'e', 'x', 't', 'b', 'y', 't', 'e', 's'], ['n', 'u', 'l', 'l']] => some (.ofInstr (.nextBytesNull 0))
  | [['n', 'e', 'x', 't', 'b', 'y', 't', 'e', 's'], n] =>
    (decimal n).bind fun len => if len < 2 ^ 32 then some (.ofInstr (.nextBytes (BitVec.ofNat 32 len))) else none
  | _ => none

/-- The input that a line spells; a line that spells none of the four forms has none. -/
def parseLine (line : List Char) : Option HostInput := inputOfFields (fieldsFrom [] line)

/-! ## Writing a line -/

/-- A hex digit, lower case. -/
def digitChar (n : Nat) : Char := Char.ofNat (if n < 10 then 48 + n else 87 + n)

/-- Bytes as hex digits, two per byte, first byte first. -/
def hexOfBytes : List Byte → List Char
  | [] => []
  | b :: bs => digitChar (b.toNat / 16) :: digitChar (b.toNat % 16) :: hexOfBytes bs

/-- The line of a SEED. -/
def seedLine (payload : List Byte) : List Char := ['s', 'e', 'e', 'd', ' '] ++ hexOfBytes payload

/-- The number that decimal digits spell, the most significant first. -/
def decimalValue (ds : List (Fin 10)) : Nat := ds.foldl (fun v d => 10 * v + d.val) 0

/-- The line of a NEXTBYTES with a present buffer, LEN spelled by the digits `ds`. -/
def nextBytesLine (ds : List (Fin 10)) : List Char :=
  ['n', 'e', 'x', 't', 'b', 'y', 't', 'e', 's', ' '] ++ ds.map fun d => digitChar d.val

end Sys2Proof.Machine
end

