-- ==== Sys2Proof/Safety.lean ====
section
/-! DEFINITION. The terms in which claims about the machine are made: the invariants of spec/10_state.md rule R31, what
a round's 20 bytes are (spec/43_expansion.md rule R201), what has been absorbed (spec/41_seed_accumulator.md rule R149),
what the frames mean (spec/42_finalization.md rule R171), which state no output depends on (spec/10_state.md rule R37),
and when a step runs. -/

namespace Sys2Proof.Machine

/-! ## The invariants of R31. I-a, I-g and I-h hold by the types of `bc`, `ocur` and `es`. -/

/-- I-b: `BC = SL mod 64`. -/
abbrev Engine.ByteCountOfLength (e : Engine) : Prop := e.bc.toNat = e.sl.toNat % 64

/-- I-c: if `BC mod 4 ≠ 0` then lanes `BC mod 4` to 3 of `W[BC div 4]` are zero. -/
abbrev Engine.FreeLanesZero (e : Engine) : Prop :=
  e.bc.toNat % 4 ≠ 0 → ∀ j < 4, e.bc.toNat % 4 ≤ j → lane (e.w.getD (e.bc.toNat / 4) 0) j = 0

/-- I-d: if `ES ≠ Expanding` then `OCUR = 20`. -/
abbrev Engine.CarryEmptyOutsideSession (e : Engine) : Prop := e.es ≠ .expanding → e.ocur = 20

/-- I-e: if `ES = Expanding` then the snapshot registers are those of a FINALIZE of the seed registers. -/
abbrev Engine.SnapshotCurrent (P : Params) (e : Engine) : Prop :=
  e.es = .expanding →
    e.hs = e.h ∧ e.sbc = e.bc ∧ e.layout = layoutOf e.bc ∧
      e.t = placeTrailer (template e.w e.bc) (layoutOf e.bc) (lenBits P e.sl)

/-- I-f: if `ES = Uninitialized` then every register still has its reset value. -/
abbrev Engine.FreshUntilUsed (P : Params) (e : Engine) : Prop := e.es = .uninitialized → e = Engine.reset P

/-- The invariants of R31 together. -/
abbrev Engine.Inv (P : Params) (e : Engine) : Prop :=
  e.ByteCountOfLength ∧ e.FreeLanesZero ∧ e.CarryEmptyOutsideSession ∧ e.SnapshotCurrent P ∧ e.FreshUntilUsed P

/-- The invariants on the machine's state, with this hardware's parameters. -/
abbrev State.Inv (s : State) : Prop := s.engine.Inv params

/-! ## What a step may do -/

/-- A command or a step that answers a next state. -/
def Runs (o : Host.Outcome State Fault Refusal) : Prop := ∃ t, o = .next t

/-- A transaction as the host may offer it (R97): a SEED descriptor has LEN payload bytes with it. -/
def HostInput.wellFormed : HostInput → Bool
  | .reset => true
  | .command d payload => decide (decode d payload ≠ .error .payloadLength)

/-! ## The output of a session -/

/-- The digest of one or two frames, chained (R195). -/
def chainDigest (P : Params) (layout : PaddingLayout) (hs : Digest) (g : Work) : Digest :=
  match layout with
  | .singleBlock => P.compress hs (frame1 g)
  | .twoBlock => P.compress (P.compress hs (frame1 g)) (frame2 g)

/-- What those compressions ask of the primitive, in order (R195). -/
def roundRequests (P : Params) (layout : PaddingLayout) (hs : Digest) (g : Work) : List CompressRequest :=
  match layout with
  | .singleBlock => [⟨hs, frame1 g⟩]
  | .twoBlock => [⟨hs, frame1 g⟩, ⟨P.compress hs (frame1 g), frame2 g⟩]

/-- `R(c)` of R201: the 20 bytes of a round run with counter value `c` under the engine's HS, SBC, LAYOUT and T. -/
def roundBytes (P : Params) (e : Engine) (c : DWord) : List Byte :=
  (digestBytes (chainDigest P e.layout e.hs (roundFrames { e with ctr := c }))).toList

/-- `R(c) ++ R(c + 1) ++ ...`, `k` rounds (R201). -/
def roundStream (P : Params) (e : Engine) : Nat → DWord → List Byte
  | 0, _ => []
  | k + 1, c => roundBytes P e c ++ roundStream P e k (c + 1)

/-- The undelivered bytes of the carry, in delivery order (R26). -/
def Engine.undelivered (e : Engine) : List Byte := e.oc.toList.drop e.ocur.val

/-- The rounds a NEXTBYTES of `n` bytes runs when `r` carry bytes are undelivered (R204). -/
def roundsFor (n r : Nat) : Nat := (n - r + 19) / 20

/-- The carry cursor afterwards (R204). -/
def cursorAfter (n r : Nat) : Nat := if n ≤ r then 20 - r + n else (n - r - 1) % 20 + 1

/-- The compressions of one round (R195). -/
def compressionsPerRound : PaddingLayout → Nat
  | .singleBlock => 1
  | .twoBlock => 2

/-- What an output request of `n` bytes does to the engine `e` that output begins on, with `r` carry bytes undelivered
there, in a command that leads from `s` to `t` (R190, R199, R202, R204): the counter, the cursor and the number of
compressions; the carry and the working frames, which are the last round's or as they were if no round ran; and every
other register and the host's further inputs as they were. -/
def OutputEffect (P : Params) (n r : Nat) (e : Engine) (s t : State) : Prop :=
  t.engine.ctr = e.ctr + BitVec.ofNat 64 (roundsFor n r) ∧
    t.engine.ocur.val = cursorAfter n r ∧
    t.compressRequests.length = s.compressRequests.length + roundsFor n r * compressionsPerRound e.layout ∧
    (roundsFor n r = 0 → t.engine.oc = e.oc ∧ t.engine.g = e.g) ∧
    (∀ k, roundsFor n r = k + 1 →
      t.engine.oc.toList = roundBytes P e (e.ctr + BitVec.ofNat 64 k) ∧
        t.engine.g = roundFrames { e with ctr := e.ctr + BitVec.ofNat 64 k }) ∧
    t.engine.w = e.w ∧ t.engine.bc = e.bc ∧ t.engine.h = e.h ∧ t.engine.sl = e.sl ∧
    t.engine.es = e.es ∧ t.engine.hs = e.hs ∧ t.engine.sbc = e.sbc ∧
    t.engine.layout = e.layout ∧ t.engine.t = e.t ∧
    t.inputs = s.inputs

/-! ## What has been absorbed -/

/-- 64 bytes read as 16 big-endian words (R149). -/
def blockOfBytes (bs : List Byte) : Block :=
  Vector.ofFn fun i : Fin 16 =>
    wordOfBytes (bs.getD (4 * i.val) 0) (bs.getD (4 * i.val + 1) 0) (bs.getD (4 * i.val + 2) 0) (bs.getD (4 * i.val + 3) 0)

/-- `compress` folded over the first `k` blocks of 64 bytes (R149). -/
def foldBlocks (P : Params) : Nat → Digest → List Byte → Digest
  | 0, d, _ => d
  | k + 1, d, bs => foldBlocks P k (P.compress d (blockOfBytes bs)) (bs.drop 64)

/-- The requests of that fold, in order (R141). -/
def foldRequests (P : Params) : Nat → Digest → List Byte → List CompressRequest
  | 0, _, _ => []
  | k + 1, d, bs => ⟨d, blockOfBytes bs⟩ :: foldRequests P k (P.compress d (blockOfBytes bs)) (bs.drop 64)

/-- The seed registers hold exactly the bytes `seed`, absorbed since reset (R149). -/
def Engine.Holds (P : Params) (seed : List Byte) (e : Engine) : Prop :=
  e.h = foldBlocks P (seed.length / 64) P.hInit seed ∧
    e.bc.toNat = seed.length % 64 ∧
    readBytes e.w 0 e.bc.toNat = seed.drop (64 * (seed.length / 64)) ∧
    e.sl = BitVec.ofNat 64 seed.length

/-! ## The standard's padding (R171; the spec states it from general knowledge, G3) -/

/-- The message, one byte 0x80, the fewest zero bytes that bring the length to 56 modulo 64, and the message's bit
length as 8 big-endian bytes. -/
def padMessage (m : List Byte) : List Byte :=
  m ++ [0x80] ++ List.replicate ((119 - m.length % 64) % 64) 0 ++ be64 (BitVec.ofNat 64 (8 * m.length))

/-- The hash of a message over the compression primitive, as 20 bytes. -/
def hashMessage (P : Params) (m : List Byte) : List Byte :=
  (digestBytes (foldBlocks P ((padMessage m).length / 64) P.hInit (padMessage m))).toList

/-- The hashes of `seed ++ BE64(c)`, `seed ++ BE64(c + 1)`, ..., `k` of them. -/
def hashStream (P : Params) (seed : List Byte) : Nat → DWord → List Byte
  | 0, _ => []
  | k + 1, c => hashMessage P (seed ++ be64 c) ++ hashStream P seed k (c + 1)

/-! ## Hidden state (R37) -/

/-- Two engines that differ at most in state that no output depends on (R37): words of `W` above the valid bytes,
delivered carry bytes, `G`, and the snapshot registers outside Expanding. -/
def Engine.SameVisible (e f : Engine) : Prop :=
  e.bc = f.bc ∧ e.h = f.h ∧ e.sl = f.sl ∧ e.ctr = f.ctr ∧ e.ocur = f.ocur ∧ e.es = f.es ∧
    readBytes e.w 0 e.bc.toNat = readBytes f.w 0 f.bc.toNat ∧
    e.undelivered = f.undelivered ∧
    (e.es = .expanding → e.hs = f.hs ∧ e.sbc = f.sbc ∧ e.layout = f.layout ∧ e.t = f.t)

end Sys2Proof.Machine
end

