-- ==== Sys2Proof/Certificates/Slice0/Obligations.lean ====
section
/-! DEFINITION. The statements for the provers. Each says which rule or section of spec/ it formalises. -/

open Sys2Proof Sys2Proof.Machine

/-! ## Descriptors (spec/30_encoding.md) -/

/-- R92, R93, R96 on words written out: vectors V-D1, V-D2, V-D4, V-D5, V-D6, V-D7, V-D8, V-D9, V-D10, V-D12, V-D13 of
spec/95_test_vectors.md. -/
def Obligations.WordsOfTheSpecDecode : Prop :=
  decode 0x1000000000000003 [0x61, 0x62, 0x63] = .ok (.seed [0x61, 0x62, 0x63]) ∧
    decode 0x1000000000000000 [] = .ok (.seed []) ∧
    decode 0x2800000000000014 [] = .ok (.nextBytes 20) ∧
    decode 0x2800000000000000 [] = .ok (.nextBytes 0) ∧
    decode 0x2000000000000000 [] = .ok (.nextBytesNull 0) ∧
    decode 0x2000000000000014 [] = .ok (.nextBytesNull 20) ∧
    decode 0x1800000000000003 [] = .error .illegalDescriptor ∧
    decode 0x0000000000000000 [] = .error .illegalDescriptor ∧
    decode 0x3000000000000000 [] = .error .illegalDescriptor ∧
    decode 0x1000000100000003 [] = .error .illegalDescriptor ∧
    decode 0x2C00000000000014 [] = .error .illegalDescriptor

/-- R91, R92, R93, R97: what the encoder spells, the decoder reads back, for every well-formed command and every operand. -/
def Obligations.DecodeOfEncode : Prop :=
  ∀ i : Instr, i.wellFormed = true → decode (encodeDescriptor i) (encodePayload i) = .ok i

/-- R95: the decoder drops no bit. A descriptor that decodes is the one encoding of what it decodes to, the ignored LEN
of an absent buffer included; a SEED takes exactly the payload offered with it. -/
def Obligations.EncodeOfDecode : Prop :=
  ∀ (d : Descriptor) (p : List Byte) (i : Instr), decode d p = .ok i →
    i.wellFormed = true ∧ encodeDescriptor i = d ∧ ∀ q, i = .seed q → q = p

/-- The match and mask of each row of spec/opcode_table.json (R92, R93), and the operands read. -/
def Obligations.TableRowsDecode : Prop :=
  ∀ (d : Descriptor) (p : List Byte),
    ((∃ q, decode d p = .ok (.seed q)) ↔
      d &&& 0xFFFFFFFF00000000 = 0x1000000000000000 ∧ p.length = d.toNat % 2 ^ 32) ∧
    ((∃ n, decode d p = .ok (.nextBytes n)) ↔ d &&& 0xFFFFFFFF00000000 = 0x2800000000000000) ∧
    ((∃ n, decode d p = .ok (.nextBytesNull n)) ↔ d &&& 0xFFFFFFFF00000000 = 0x2000000000000000) ∧
    (∀ n, decode d p = .ok (.nextBytes n) → n.toNat = d.toNat % 2 ^ 32)

/-- R96, R242: which descriptors are illegal, written over the descriptor's number, and what a step does on one: status 2,
no output, every register as it was, neither collaborator called; the bytes offered with it are read by nothing. -/
def Obligations.IllegalDescriptors : Prop :=
  ∀ (d : Descriptor) (p : List Byte),
    (decode d p = .error .illegalDescriptor ↔
      d.toNat / 2 ^ 32 % 2 ^ 27 ≠ 0 ∨ (d.toNat / 2 ^ 60 ≠ 1 ∧ d.toNat / 2 ^ 60 ≠ 2) ∨
        (d.toNat / 2 ^ 60 = 1 ∧ d.toNat / 2 ^ 59 % 2 = 1)) ∧
    (decode d p = .error .illegalDescriptor → ∀ (s : State) (rest : List HostInput), s.inputs = .command d p :: rest →
      step s = .next { s with inputs := rest, responses := s.responses ++ [⟨[], .illegalCommand⟩] }) ∧
    Status.illegalCommand.code = 2

/-- The listing (spec/30_encoding.md section 9, R101): the line of a SEED, two hex digits per byte, reads as that command,
for every payload; the line of a NEXTBYTES reads as that command for every decimal spelling of a number below 2^32
(leading zeros included, which is the model's reading, notes/assumptions/22.md), its descriptor R93's; a comment changes nothing; and the lines `reset`, `seed`, `nextbytes 20`,
`nextbytes null`. -/
def Obligations.ListingLines : Prop :=
  (∀ p : List Byte, (Instr.seed p).wellFormed = true →
    parseLine (seedLine p) = some (.command (encodeDescriptor (.seed p)) p)) ∧
  (∀ ds : List (Fin 10), ds ≠ [] → decimalValue ds < 2 ^ 32 →
    parseLine (nextBytesLine ds) = some (.command (BitVec.ofNat 64 (0x2800000000000000 + decimalValue ds)) [])) ∧
  (∀ line comment : List Char, parseLine (line ++ ';' :: comment) = parseLine line) ∧
  parseLine ['r', 'e', 's', 'e', 't'] = some .reset ∧
  parseLine ['s', 'e', 'e', 'd'] = some (.command 0x1000000000000000 []) ∧
  parseLine ['n', 'e', 'x', 't', 'b', 'y', 't', 'e', 's', ' ', '2', '0'] = some (.command 0x2800000000000014 []) ∧
  parseLine ['n', 'e', 'x', 't', 'b', 'y', 't', 'e', 's', ' ', 'n', 'u', 'l', 'l'] =
    some (.command 0x2000000000000000 [])

/-! ## Steps -/

/-- When the head of the host's inputs decodes to a command, a step is `exec` of it on the state with that input
consumed, and nothing else (R3, R95). -/
def Obligations.StepRunsTheDecodedCommand : Prop :=
  ∀ (s : State) (d : Descriptor) (p : List Byte) (rest : List HostInput) (i : Instr),
    s.inputs = .command d p :: rest → decode d p = .ok i → step s = exec i { s with inputs := rest }

/-- The instruction that a table word decodes to is what the very next step runs after `withFetchWord`, on an otherwise
unchanged state (notes/assumptions/7.md). -/
def Obligations.FetchWordRunsNext : Prop :=
  ∀ (s : State) (nbits w : Nat) (i : Instr), decodeTableWord nbits w = some i →
    step (s.withFetchWord nbits w) = exec i s

/-- The reset input (spec/70_reset_and_hazards.md section 1, spec/10_state.md section 10): one step puts every register
at its reset value, from any state. H_INIT and the zeros of the registers that the source gives no value are the spec's
own values (notes/assumptions/3.md, 5.md). That the records of responses, of compression requests and of draws, and the
host's further inputs, survive the reset input is the model's own choice (notes/assumptions/6.md, and 1.md for the
draws): R272 says that nothing of the engine survives a reset, and says nothing of these records, which are not the
engine's. -/
def Obligations.ResetInput : Prop :=
  ∀ (s : State) (rest : List HostInput), s.inputs = .reset :: rest →
    step s = .next { s with
      inputs := rest
      engine :=
        { w := Vector.replicate 16 0, bc := 0
          h := #v[0x67452301, 0xEFCDAB89, 0x98BADCFE, 0x10325476, 0xC3D2E1F0]
          sl := 0, ctr := 0, oc := Vector.replicate 20 0, ocur := 20, es := .uninitialized
          hs := Vector.replicate 5 0, sbc := 0, layout := .singleBlock
          t := Vector.replicate 32 0, g := Vector.replicate 32 0 } }

/-- The state after reset is that state with idle ports, and the engine waits there for its first command
(spec/70_reset_and_hazards.md section 1). The empty ports and the count of draws are the model's own
(notes/assumptions/6.md). That every state with no input waits, as a step that changes nothing, is DEDUCED
(notes/assumptions/9.md) from spec/60_exceptions.md section 10, R251: there is nothing for the engine to wait for between
commands except the next command. -/
def Obligations.ResetStateWaits : Prop :=
  State.reset.engine = Engine.reset params ∧ State.reset.inputs = [] ∧ State.reset.responses = [] ∧
    State.reset.compressRequests = [] ∧ State.reset.entropyDraws = 0 ∧
    ∀ s : State, s.inputs = [] → step s = .next s

/-- The only stop of the machine: a SEED descriptor offered with a payload of another length, "not a command at all"
(spec/30_encoding.md section 6). The refusal is the model's (notes/assumptions/8.md). No step faults. -/
def Obligations.StepStopsOnlyOnWrongPayload : Prop :=
  ∀ s : State, (∀ f, step s ≠ .fault f) ∧
    ∀ r, step s = .refused r ↔
      r = .payloadLengthMismatch ∧ ∃ d p rest, s.inputs = .command d p :: rest ∧
        d.toNat / 2 ^ 32 = 0x10000000 ∧ p.length ≠ d.toNat % 2 ^ 32

/-- R98: every command that the host may offer ends with exactly one status, with code 0, 1 or 2, and after it the
next input is due. The output bytes are LEN many for a NEXTBYTES with status OK and none otherwise. -/
def Obligations.EveryCommandEndsWithOneStatus : Prop :=
  (Status.ok.code = 0 ∧ Status.invalidArgument.code = 1 ∧ Status.illegalCommand.code = 2) ∧
  ∀ (s : State) (d : Descriptor) (p : List Byte) (rest : List HostInput),
    s.inputs = .command d p :: rest → (HostInput.command d p).wellFormed = true →
      ∃ t r, step s = .next t ∧ t.inputs = rest ∧ t.responses = s.responses ++ [r] ∧
        r.output.length = (match decode d p with | .ok (.nextBytes n) => n.toNat | _ => 0) ∧
        (r.status = .invalidArgument ↔ ∃ n, decode d p = .ok (.nextBytesNull n)) ∧
        (r.status = .illegalCommand ↔ decode d p = .error .illegalDescriptor)

/-! ## Invariants (spec/10_state.md section 8) -/

/-- The invariants of R31 hold after reset. -/
def Obligations.InvariantsAfterReset : Prop := State.reset.Inv

/-- The invariants of R31, I-a to I-h, are kept by every step, from every state that meets them. R31 derives them from
other rules. -/
def Obligations.InvariantsKeptByEveryStep : Prop :=
  ∀ s t : State, s.Inv → step s = .next t →
    t.Inv ∧ t.engine.bc.toNat ≤ 63 ∧ t.engine.ocur.val ≤ 20 ∧ t.engine.es.code ≠ 3

/-- The EngineState transitions (spec/10_state.md section 5, the table of R27), complete: every row of the table, the
reset row too; with no input there is no event and ES stays (notes/assumptions/9.md). -/
def Obligations.EngineStateTransitions : Prop :=
  ∀ s t : State, step s = .next t →
    t.engine.es = (match s.inputs with
      | [] => s.engine.es
      | .reset :: _ => .uninitialized
      | .command d p :: _ =>
        match decode d p with
        | .ok (.seed payload) => if payload.length = 0 then s.engine.es else .seeded
        | .ok (.nextBytes n) => if n = 0 then s.engine.es else .expanding
        | .ok (.nextBytesNull _) => s.engine.es
        | .error _ => s.engine.es)

/-- The counter (spec/10_state.md section 5, R25): no command but a NEXTBYTES that runs rounds changes it, and that one
by the number of rounds, modulo 2^64. The number is that of R204 for the carry left when the rounds are due. -/
def Obligations.CounterCountsRounds : Prop :=
  ∀ (i : Instr) (s t : State), exec i s = .next t →
    t.engine.ctr = s.engine.ctr + BitVec.ofNat 64 (match i with
      | .seed _ => 0
      | .nextBytes n => roundsFor n.toNat (if n = 0 then 0 else 20 - (beginOutput params s).engine.ocur.val)
      | .nextBytesNull _ => 0)

/-! ## The address spaces and the packer (spec/20_memory.md, spec/40_block_packer.md) -/

/-- Reading after writing (spec/20_memory.md section 3, R64): a write replaces exactly the addressed bytes of its space,
and no byte of another space of the engine. -/
def Obligations.ReadAfterWrite : Prop :=
  ∀ (e : Engine) (sp sq : Space) (a : Nat) (v : List Byte), a + v.length ≤ sp.size → ∀ k < sq.size,
    (e.memWrite sp a v).memRead sq k 1 =
      if sq = sp ∧ a ≤ k ∧ k < a + v.length then [v.getD (k - a) 0] else e.memRead sq k 1

/-- The byte-level meaning of APPEND (spec/40_block_packer.md section 4, R129) under its preconditions (R127): the source
bytes at the cursor; zeros in the rest of the last word where phase (c) ran; every other lane as it was. -/
def Obligations.AppendBytesAtCursor : Prop :=
  ∀ (nw : Nat) (B : Vector Word nw) (src : List Byte) (first last cur : Nat),
    first ≤ last → last ≤ src.length → cur + (last - first) ≤ 4 * nw →
    (cur % 4 ≠ 0 → ∀ j < 4, cur % 4 ≤ j → lane (B.getD (cur / 4) 0) j = 0) →
      (append B src first last cur).2 = cur + (last - first) ∧
      ∀ k < 4 * nw, byteAt (append B src first last cur).1 k =
        if cur ≤ k ∧ k < cur + (last - first) then src.getD (first + (k - cur)) 0
        else if cur + (last - first) ≤ k ∧ k / 4 = (cur + (last - first)) / 4 ∧ (cur + (last - first)) % 4 ≠ 0 ∧
            first < last ∧ (cur % 4 = 0 ∨ cur / 4 < (cur + (last - first)) / 4) then 0
        else byteAt B k

/-- The packer's part of the document's property 3 (spec/40_block_packer.md section 4, R129, Consequence): appending `s`
and then `t` at the returned cursor is appending `s ++ t` once. It holds for every buffer and cursor, every word included.
Under the preconditions of R127 it is the spec's; where they fail the spec gives APPEND no meaning (U9), and there it says
what the model chose (past the capacity: notes/assumptions/24.md; over non-zero lanes: notes/assumptions/11.md). -/
def Obligations.AppendTwiceIsAppendOnce : Prop :=
  ∀ (nw : Nat) (B : Vector Word nw) (s t : List Byte) (cur : Nat),
    append (append B s 0 s.length cur).1 t 0 t.length (append B s 0 s.length cur).2 =
      append B (s ++ t) 0 (s ++ t).length cur

/-- APPEND writes no word outside words `cur div 4` to `(cur + n - 1) div 4` (spec/40_block_packer.md section 3, R126).
Where the preconditions of R127 fail, it is a statement about the model's choice (notes/assumptions/11.md, 24.md). -/
def Obligations.AppendLeavesOtherWords : Prop :=
  ∀ (nw : Nat) (B : Vector Word nw) (bs : List Byte) (cur i : Nat),
    (bs = [] ∨ i < cur / 4 ∨ (cur + bs.length - 1) / 4 < i) →
      (append B bs 0 bs.length cur).1.getD i 0 = B.getD i 0

/-- `packPartialWord` is phase (a) on one word, and phase (c) (spec/40_block_packer.md section 2, R125). -/
def Obligations.PartialWordIsPhaseAOrC : Prop :=
  ∀ (nw : Nat) (B : Vector Word nw) (x o : Nat) (v : List Byte), x < nw → v ≠ [] → o + v.length ≤ 4 →
    (o ≠ 0 ∨ v.length ≤ 3) →
      append B v 0 v.length (4 * x + o) =
        (B.setIfInBounds x (packPartialWord (if o = 0 then 0 else B.getD x 0) o v), 4 * x + o + v.length)

/-- A 64-bit value as eight bytes at an aligned cursor is two words, the high half first (spec/20_memory.md section 2,
R63; so the trailer may go through the packer, R128). For a cursor with `4 i + 8 > 4 NW` the spec gives APPEND no meaning
(R127, U9), and there the statement says what the model chose (notes/assumptions/24.md). -/
def Obligations.EightBytesAreTwoWords : Prop :=
  ∀ (nw : Nat) (B : Vector Word nw) (v : DWord) (i : Nat),
    append B (be64 v) 0 8 (4 * i) =
      ((B.setIfInBounds i (v.extractLsb' 32 32)).setIfInBounds (i + 1) (v.extractLsb' 0 32), 4 * i + 8)

/-- R99: the 672-bit request and the 160-bit response put their words in order, the first at the most significant end. -/
def Obligations.CompressPortOrder : Prop :=
  (∀ (r : CompressRequest) (i : Nat), i < 5 → r.bits.extractLsb' (32 * (20 - i)) 32 = r.digest.getD i 0) ∧
    (∀ (r : CompressRequest) (i : Nat), i < 16 → r.bits.extractLsb' (32 * (15 - i)) 32 = r.block.getD i 0) ∧
    (∀ (d : Digest) (i : Nat), i < 5 → (responseBits d).extractLsb' (32 * (4 - i)) 32 = d.getD i 0)

/-! ## SEED (spec/41_seed_accumulator.md) -/

/-- R144, R147: an empty SEED changes nothing at all, not ES and not the carry; it answers OK. ABSORB of no bytes changes
no register. -/
def Obligations.EmptySeedChangesNothing : Prop :=
  (∀ s : State, exec (.seed []) s = .next { s with responses := s.responses ++ [⟨[], .ok⟩] }) ∧
    ∀ (P : Params) (s : State), absorb P [] s = s

/-- R143 at a SEED with bytes, which completes in every state with status OK and no output: the seed length grows by the
number of bytes, modulo 2^64, however many blocks they complete. The rest of the state change
(spec/41_seed_accumulator.md section 2): the carry is dropped, ES is Seeded; CTR, HS, SBC, LAYOUT and T are as they were,
and so are OC, G, the host's other inputs and the count of draws. -/
def Obligations.SeedStateChange : Prop :=
  ∀ (s : State) (p : List Byte), p ≠ [] → ∃ t, exec (.seed p) s = .next t ∧
    t.engine.sl.toNat = (s.engine.sl.toNat + p.length) % 2 ^ 64 ∧
    t.engine.ocur = 20 ∧ t.engine.es = .seeded ∧
    t.responses = s.responses ++ [⟨[], .ok⟩] ∧
    t.engine.ctr = s.engine.ctr ∧ t.engine.oc = s.engine.oc ∧ t.engine.hs = s.engine.hs ∧ t.engine.sbc = s.engine.sbc ∧
    t.engine.layout = s.engine.layout ∧ t.engine.t = s.engine.t ∧ t.engine.g = s.engine.g ∧
    t.inputs = s.inputs ∧ t.entropyDraws = s.entropyDraws

/-- The byte count after a SEED, modulo 64, and the number of compressions it fires, one for each block completed, in
every state (spec/41_seed_accumulator.md section 1, R142). H changes only when a block is completed (R22). -/
def Obligations.SeedCountsBlocks : Prop :=
  ∀ (s : State) (p : List Byte), ∃ t, exec (.seed p) s = .next t ∧
    t.engine.bc.toNat = (s.engine.bc.toNat + p.length) % 64 ∧
    t.compressRequests.length = s.compressRequests.length + (s.engine.bc.toNat + p.length) / 64 ∧
    (s.engine.bc.toNat + p.length < 64 → t.engine.h = s.engine.h)

/-- Every byte of the frame after a SEED (spec/41_seed_accumulator.md section 1, R140, R141; spec/40_block_packer.md
section 4, R129), with `total` the valid bytes of the frame and then the payload: the bytes of the last, open block;
zeros in the rest of its last word; above that the frame is not cleared: the block before it, or what was there. -/
def Obligations.SeedFrameBytes : Prop :=
  ∀ (s : State) (p : List Byte), s.engine.FreeLanesZero → ∃ t, exec (.seed p) s = .next t ∧
    let total := readBytes s.engine.w 0 s.engine.bc.toNat ++ p
    let blocks := total.length / 64
    let opened := total.length % 64
    ∀ k < 64, byteAt t.engine.w k =
      if k < opened then total.getD (64 * blocks + k) 0
      else if k / 4 = opened / 4 ∧ opened % 4 ≠ 0 then 0
      else if blocks = 0 then byteAt s.engine.w k
      else total.getD (64 * (blocks - 1) + k) 0

/-- What a SEED leaves in the digest and the frame, for every compression primitive (R140, R141): the valid bytes of the
frame and then the payload, its whole blocks folded into H, one request for each, the rest of it in the frame. -/
def Obligations.SeedFoldsWholeBlocks : Prop :=
  ∀ (P : Params) (s : State) (p : List Byte), s.engine.FreeLanesZero →
    let total := readBytes s.engine.w 0 s.engine.bc.toNat ++ p
    let t := seedCommand P p s
    t.engine.h = foldBlocks P (total.length / 64) s.engine.h total ∧
      t.compressRequests = s.compressRequests ++ foldRequests P (total.length / 64) s.engine.h total ∧
      readBytes t.engine.w 0 t.engine.bc.toNat = total.drop (64 * (total.length / 64)) ∧
      t.engine.FreeLanesZero

/-- Seed accumulation (spec/41_seed_accumulator.md section 3, R148; the document's property 3): SEED of `a` and then of
`b` leaves every register, every compression request and the count of draws as one SEED of `a ++ b` does, for every
compression primitive and from every state (in a state whose free lanes are not zero, by the model's choice:
notes/assumptions/11.md). -/
def Obligations.TwoSeedsAreOne : Prop :=
  ∀ (P : Params) (a b : List Byte) (s : State),
    (seedCommand P b (seedCommand P a s)).engine = (seedCommand P (a ++ b) s).engine ∧
      (seedCommand P b (seedCommand P a s)).compressRequests = (seedCommand P (a ++ b) s).compressRequests ∧
      (seedCommand P b (seedCommand P a s)).entropyDraws = (seedCommand P (a ++ b) s).entropyDraws

/-- The seed registers are the fold of everything absorbed since reset (spec/41_seed_accumulator.md section 3, R149,
R150), for every compression primitive: so after reset with nothing absorbed, kept by SEED, which appends its payload,
and kept unchanged by every output once there is a seed. -/
def Obligations.SeedRegistersHoldTheSeed : Prop :=
  ∀ P : Params, (Engine.reset P).Holds P [] ∧
    (∀ (s : State) (seed p : List Byte), s.engine.Holds P seed → s.engine.FreeLanesZero →
      (seedCommand P p s).engine.Holds P (seed ++ p)) ∧
    (∀ (s : State) (seed : List Byte) (present : Bool) (n : Nat), s.engine.Holds P seed → s.engine.es ≠ .uninitialized →
      (nextBytesCommand P present n s).engine.Holds P seed)

/-! ## Finalization (spec/42_finalization.md) -/

/-- R162, R163, for FINALIZE on any registers and at the first output request after a seed: it completes; the snapshot is
taken and the layout selected, and no round changes them. Of the other registers FINALIZE writes none of W, BC, H, SL, CTR, and the rounds after it none of W, BC, H, SL. -/
def Obligations.FinalizationSnapshotsTheSeed : Prop :=
  (∀ (P : Params) (e : Engine),
    (finalize P e).hs = e.h ∧ (finalize P e).sbc = e.bc ∧
    (finalize P e).layout = (if 48 ≤ e.bc.toNat then .twoBlock else .singleBlock) ∧
    (finalize P e).w = e.w ∧ (finalize P e).bc = e.bc ∧ (finalize P e).h = e.h ∧
    (finalize P e).sl = e.sl ∧ (finalize P e).ctr = e.ctr) ∧
  ∀ (s : State) (n : BitVec 32), s.engine.es = .seeded → n ≠ 0 → ∃ t, exec (.nextBytes n) s = .next t ∧
    t.engine.hs = s.engine.h ∧ t.engine.sbc = s.engine.bc ∧
    t.engine.layout = (if 48 ≤ s.engine.bc.toNat then .twoBlock else .singleBlock) ∧
    t.engine.t = (finalize params s.engine).t ∧ t.engine.es = .expanding ∧
    t.engine.w = s.engine.w ∧ t.engine.bc = s.engine.bc ∧ t.engine.h = s.engine.h ∧ t.engine.sl = s.engine.sl ∧
    t.inputs = s.inputs ∧ t.entropyDraws = s.entropyDraws

/-- R164, R166: every byte of the template that FINALIZE builds: the valid seed bytes of W, the bit length in words 14 and
15 of the last frame, high half first, and zero everywhere else, whatever W holds there. -/
def Obligations.TemplateBytes : Prop :=
  ∀ (P : Params) (e : Engine),
    let first := if 48 ≤ e.bc.toNat then 16 else 0
    ((finalize P e).t.getD (first + 14) 0 = (lenBits P e.sl).extractLsb' 32 32 ∧
      (finalize P e).t.getD (first + 15) 0 = (lenBits P e.sl).extractLsb' 0 32) ∧
    ∀ k < 128, byteAt (finalize P e).t k =
      if k < e.bc.toNat then byteAt e.w k
      else if 4 * (first + 14) ≤ k ∧ k < 4 * (first + 16) then (be64 (lenBits P e.sl)).getD (k - 4 * (first + 14)) 0
      else 0

/-- The bit length (spec/42_finalization.md section 3, R165; spec/70_reset_and_hazards.md R285): 8 times the seed length
plus the bias, modulo 2^64; the example of R165 with the bias 64, which is the spec's own choice (D5,
notes/assumptions/4.md). -/
def Obligations.BitLengthWraps : Prop :=
  (∀ (P : Params) (sl : DWord), (lenBits P sl).toNat = (8 * sl.toNat + P.lenBiasBits.toNat) % 2 ^ 64) ∧
    lenBits params 3 = 0x58 ∧ lenBits params 0x1FFFFFFFFFFFFFF8 = 0 ∧ lenBits params 0x2000000000000003 = 0x58

/-- R167: every byte of the two working frames of a round after a finalization, for every byte count: seed bytes, the
counter, the flag byte, zeros, the bit length, as one 128-byte string. -/
def Obligations.WorkingFrameLayout : Prop :=
  ∀ (P : Params) (e : Engine), ∀ k < 128,
    let p := e.bc.toNat
    let trailer := if 48 ≤ p then 120 else 56
    byteAt (roundFrames (finalize P e)) k =
      if k < p then byteAt e.w k
      else if k < p + 8 then (be64 e.ctr).getD (k - p) 0
      else if k = p + 8 then 0x80
      else if k < trailer then 0
      else if k < trailer + 8 then (be64 (lenBits P e.sl)).getD (k - trailer) 0
      else 0

/-- The closed form of the counter and flag words (spec/43_expansion.md section 4, R205), for every template and every
byte count; every other word of G is T's. For a template that no FINALIZE builds, with lanes that are not zero at SBC,
APPEND has no meaning in the spec (U9) and the statement says what the model chose (notes/assumptions/11.md). -/
def Obligations.CounterWordsClosedForm : Prop :=
  ∀ e : Engine,
    let n := e.sbc.toNat % 4
    let x := e.sbc.toNat / 4
    let c := e.ctr.toNat
    (roundFrames e).getD x 0 =
      (if n = 0 then 0 else e.t.getD x 0) ||| BitVec.ofNat 32 (c / 2 ^ (32 + 8 * n)) ∧
    (roundFrames e).getD (x + 1) 0 = BitVec.ofNat 32 (c / 2 ^ (8 * n)) ∧
    (roundFrames e).getD (x + 2) 0 =
      (if n = 0 then 0 else BitVec.ofNat 32 (c * 2 ^ (32 - 8 * n))) ||| BitVec.ofNat 32 (0x80 * 2 ^ (24 - 8 * n)) ∧
    ∀ i < 32, i ≠ x → i ≠ x + 1 → i ≠ x + 2 → (roundFrames e).getD i 0 = e.t.getD i 0

/-- R161: output asked for before any seed. The 20 bytes of the entropy source, whatever they are, are absorbed like a
seed: W, BC, SL as R161 gives them, H still H_INIT, no compression for them, one draw; and the output and every register are those of a SEED of
these bytes followed by the same request. The entropy source's answer is a free value (notes/assumptions/1.md). -/
def Obligations.SelfSeedIsASeedOfTheDraw : Prop :=
  ∀ (s : State) (n : BitVec 32), s.Inv → s.engine.es = .uninitialized → n ≠ 0 →
    let a := Config.entropyAnswer s.entropyDraws
    ∃ t u v, exec (.nextBytes n) s = .next t ∧ exec (.seed a.toList) s = .next u ∧ exec (.nextBytes n) u = .next v ∧
      (∀ j (h : j < 5), t.engine.w.getD j 0 = wordOfBytes a[4 * j] a[4 * j + 1] a[4 * j + 2] a[4 * j + 3]) ∧
      t.engine.bc = 20 ∧ t.engine.sl = 20 ∧ t.engine.h = params.hInit ∧ t.entropyDraws = s.entropyDraws + 1 ∧
      u.compressRequests = s.compressRequests ∧
      t.engine = v.engine ∧ t.responses.getLast? = v.responses.getLast? ∧ t.compressRequests = v.compressRequests

/-! ## NEXTBYTES (spec/43_expansion.md) -/

/-- R191, R241: an absent buffer, in every state and whatever LEN holds: status 1, no output, and nothing else changes,
so no self-seed, no finalization, no round, and the entropy source is not asked. SEED never raises it. -/
def Obligations.AbsentBufferIsInvalidArgument : Prop :=
  (∀ (n : BitVec 32) (s : State),
    exec (.nextBytesNull n) s = .next { s with responses := s.responses ++ [⟨[], .invalidArgument⟩] }) ∧
  Status.invalidArgument.code = 1 ∧
  ∀ (p : List Byte) (s : State), ∃ t, exec (.seed p) s = .next t ∧ t.responses = s.responses ++ [⟨[], .ok⟩]

/-- R192: a present buffer of length zero, in every state: status OK, no output, and nothing else changes: no self-seed, no
finalization, the entropy source is not asked. -/
def Obligations.EmptyRequestChangesNothing : Prop :=
  ∀ s : State, exec (.nextBytes 0) s = .next { s with responses := s.responses ++ [⟨[], .ok⟩] }

/-- Empty commands cannot be noticed (the document's property 7, spec/95_test_vectors.md part 1): after a SEED of no bytes
or a request for none, every command does and answers what it would have done and answered without it. -/
def Obligations.EmptyCommandsAreInvisible : Prop :=
  ∀ (s : State) (e i : Instr), e = .seed [] ∨ e = .nextBytes 0 →
    ∃ t u v r, exec e s = .next t ∧ exec i t = .next u ∧ exec i s = .next v ∧
      v.responses = s.responses ++ [r] ∧ u = { v with responses := s.responses ++ [⟨[], .ok⟩, r] }

/-- R195, R196: a round compresses the first frame from HS, and in the TwoBlock layout the second frame from that result;
the 20 carry bytes are the digest's words in order, most significant byte first; none is delivered. -/
def Obligations.RoundCompressesAndSerializes : Prop :=
  ∀ (P : Params) (s : State),
    let g := roundFrames s.engine
    let d1 := P.compress s.engine.hs (frame1 g)
    let d := if s.engine.layout = .twoBlock then P.compress d1 (frame2 g) else d1
    (round P s).compressRequests = s.compressRequests ++
      (⟨s.engine.hs, frame1 g⟩ :: if s.engine.layout = .twoBlock then [⟨d1, frame2 g⟩] else []) ∧
    (round P s).engine.ocur = 0 ∧
    ∀ i < 5,
      (round P s).engine.oc.getD (4 * i) 0 = (d.getD i 0).extractLsb' 24 8 ∧
      (round P s).engine.oc.getD (4 * i + 1) 0 = (d.getD i 0).extractLsb' 16 8 ∧
      (round P s).engine.oc.getD (4 * i + 2) 0 = (d.getD i 0).extractLsb' 8 8 ∧
      (round P s).engine.oc.getD (4 * i + 3) 0 = (d.getD i 0).extractLsb' 0 8

/-- R197, R198: a pass of the round loop with `o` of the `len` bytes written, `o < len`. The round's 20 bytes are
computed with the counter as it stood; `m` of them, 20 or as many as are wanted, go to output positions `o` to
`o + m - 1`, and the positions before stay; the cursor is `m`, so bytes are left only where fewer than 20 were wanted;
and the counter goes up by one, modulo 2^64, however many went out. -/
def Obligations.RoundSlicesAndCounts : Prop :=
  ∀ (P : Params) (len fuel : Nat) (out : List Byte) (s : State), out.length < len →
    let o := out.length
    let m := min 20 (len - o)
    ∃ (out' : List Byte) (t : State),
      roundLoop P len (fuel + 1) out s = roundLoop P len fuel out' t ∧
      t.engine.oc.toList = roundBytes P s.engine s.engine.ctr ∧
      out'.length = o + m ∧ out'.take o = out ∧ (∀ k < m, out'.getD (o + k) 0 = t.engine.oc.getD k 0) ∧
      t.engine.ocur.val = m ∧ (20 ≤ len - o → t.engine.undelivered = []) ∧
      t.engine.undelivered = (roundBytes P s.engine s.engine.ctr).drop (len - o) ∧
      t.engine.ctr.toNat = (s.engine.ctr.toNat + 1) % 2 ^ 64

/-- R193: the carry goes out first. DRAIN takes the undelivered bytes wanted, in order, and moves the cursor past them,
nothing else. In a session, a request that the carry serves is answered from it whole, with no round, and only the cursor
moves; any request begins with it; and right after a finalization the carry is empty. -/
def Obligations.CarryGoesOutFirst : Prop :=
  (∀ (len : Nat) (e : Engine),
    let m := min (20 - e.ocur.val) len
    (drain len e).1 = e.memRead .carry e.ocur.val m ∧ (drain len e).2.ocur.val = e.ocur.val + m ∧
      (drain len e).2 = { e with ocur := (drain len e).2.ocur }) ∧
  (∀ (s : State) (n : BitVec 32), s.engine.es = .expanding → n ≠ 0 → n.toNat ≤ 20 - s.engine.ocur.val →
    ∃ t, exec (.nextBytes n) s = .next t ∧
      t = { s with
        engine := { s.engine with ocur := t.engine.ocur }
        responses := s.responses ++ [⟨s.engine.memRead .carry s.engine.ocur.val n.toNat, .ok⟩] } ∧
      t.engine.ocur.val = s.engine.ocur.val + n.toNat) ∧
  (∀ (s : State) (n : BitVec 32), s.engine.es = .expanding → n ≠ 0 →
    ∃ t r, exec (.nextBytes n) s = .next t ∧ t.responses = s.responses ++ [r] ∧
      r.output.take (min (20 - s.engine.ocur.val) n.toNat) =
        s.engine.memRead .carry s.engine.ocur.val (min (20 - s.engine.ocur.val) n.toNat)) ∧
  ∀ s : State, s.Inv → s.engine.es ≠ .expanding → (beginOutput params s).engine.ocur = 20

/-- The counts and the frame of output (spec/43_expansion.md section 4, R202, R204), in every EngineState: the request
completes; counter, cursor, number of compressions; the carry and the working frames are the last round's, or as they
were if no round ran; every other register is as it was when output began, and the host's other inputs are as they were.
Within a session output begins on the engine as it stands, with the carry it has; a request that finalizes (R31's
invariants hold) begins on what FINALIZE leaves (after SELFSEED, if Uninitialized), with no carry, and the draw of an
Uninitialized engine adds no compression. -/
def Obligations.OutputCountsAndFrame : Prop :=
  ∀ (s : State) (n : BitVec 32), n ≠ 0 →
    (s.engine.es = .expanding → ∃ t, exec (.nextBytes n) s = .next t ∧
      OutputEffect params n.toNat (20 - s.engine.ocur.val) s.engine s t ∧ t.entropyDraws = s.entropyDraws) ∧
    (s.Inv → s.engine.es = .seeded → ∃ t, exec (.nextBytes n) s = .next t ∧
      OutputEffect params n.toNat 0 (finalize params s.engine) s t ∧ t.entropyDraws = s.entropyDraws) ∧
    (s.Inv → s.engine.es = .uninitialized → ∃ t, exec (.nextBytes n) s = .next t ∧
      OutputEffect params n.toNat 0 (finalize params (selfSeed params s).engine) s t ∧
      t.entropyDraws = s.entropyDraws + 1)

/-- The bytes of output within a session (spec/43_expansion.md section 4, R201), for every compression primitive: what is
left of the carry, and then `R(CTR) ++ R(CTR + 1) ++ ...`, cut to the bytes wanted. -/
def Obligations.OutputIsCarryThenRounds : Prop :=
  ∀ (P : Params) (s : State) (n : Nat), s.engine.es = .expanding → n ≠ 0 →
    (nextBytesCommand P true n s).responses = s.responses ++
      [⟨(s.engine.undelivered ++
          roundStream P s.engine (roundsFor n (20 - s.engine.ocur.val)) s.engine.ctr).take n, .ok⟩]

/-- Streaming (spec/43_expansion.md section 4, R201; the document's property 2): how the host cuts its requests does not
matter. A request of `a` bytes and then one of `b` bytes give the bytes, the registers, the compression requests and the
draws of one request of `a + b` bytes, from every state and for every compression primitive. -/
def Obligations.RequestsMayBeCutAnywhere : Prop :=
  ∀ (P : Params) (a b : Nat) (s : State),
    ∃ x y, (nextBytesCommand P true a s).responses = s.responses ++ [⟨x, .ok⟩] ∧
      (nextBytesCommand P true b (nextBytesCommand P true a s)).responses = s.responses ++ [⟨x, .ok⟩, ⟨y, .ok⟩] ∧
      (nextBytesCommand P true (a + b) s).responses = s.responses ++ [⟨x ++ y, .ok⟩] ∧
      (nextBytesCommand P true b (nextBytesCommand P true a s)).engine = (nextBytesCommand P true (a + b) s).engine ∧
      (nextBytesCommand P true b (nextBytesCommand P true a s)).compressRequests =
        (nextBytesCommand P true (a + b) s).compressRequests ∧
      (nextBytesCommand P true b (nextBytesCommand P true a s)).entropyDraws =
        (nextBytesCommand P true (a + b) s).entropyDraws

/-- A reseed (spec/43_expansion.md section 4, R203; spec/70_reset_and_hazards.md R281): a SEED with bytes in a session
drops the undelivered carry; the next output is the rounds of the grown seed from the counter as it stands. -/
def Obligations.ReseedDropsTheCarry : Prop :=
  ∀ (s : State) (p : List Byte) (n : BitVec 32), s.engine.es = .expanding → p ≠ [] → n ≠ 0 →
    ∃ t u, exec (.seed p) s = .next t ∧ exec (.nextBytes n) t = .next u ∧
      u.responses = s.responses ++ [⟨[], .ok⟩,
        ⟨(roundStream params (finalize params (absorb params p s).engine) (roundsFor n.toNat 0) s.engine.ctr).take
          n.toNat, .ok⟩]

/-- A round is the standard's hash (spec/42_finalization.md section 4, R171): with the bias 64, whatever the compression
primitive, the 20 bytes of a round are the hash, with the standard's padding, of the seed bytes and the counter. The
bias and the padding rule are the spec's own and general knowledge (D5, G3; notes/assumptions/4.md). -/
def Obligations.RoundIsTheHashOfSeedAndCounter : Prop :=
  ∀ (P : Params) (e : Engine) (seed : List Byte) (c : DWord),
    P.lenBiasBits = 64 → e.Holds P seed → seed.length + 8 < 2 ^ 61 →
      roundBytes P (finalize P e) c = hashMessage P (seed ++ be64 c)

/-- From seed to output (spec/42_finalization.md R171 with spec/43_expansion.md R201): the first request after a seed,
whatever it is that was absorbed since reset, completes and returns the hashes of seed and counter, one after another.
It rests on the bias 64 and on the standard's padding rule as `RoundIsTheHashOfSeedAndCounter` does. -/
def Obligations.OutputIsTheHashStream : Prop :=
  ∀ (s : State) (seed : List Byte) (n : BitVec 32), s.Inv → s.engine.es = .seeded → s.engine.Holds params seed →
    seed.length + 8 < 2 ^ 61 → n ≠ 0 →
      ∃ t, exec (.nextBytes n) s = .next t ∧
        t.responses = s.responses ++
          [⟨(hashStream params seed ((n.toNat + 19) / 20) s.engine.ctr).take n.toNat, .ok⟩]

/-! ## The collaborators (spec/44_external_primitives.md) -/

/-- The check value of R223 on the reference instance, which the spec gives from general knowledge (G1, G4;
notes/assumptions/2.md). -/
def Obligations.CompressionCheckValue : Prop :=
  params.compress params.hInit #v[0x61626380, 0, 0, 0, 0, 0, 0, 0, 0, 0, 0, 0, 0, 0, 0, 0x00000018] =
    #v[0xA9993E36, 0x4706816A, 0xBA3E2571, 0x7850C26C, 0x9CD0D89D]

/-- The entropy source is asked only by a NEXTBYTES with bytes to deliver that finds the engine Uninitialized, once; and
no command brings the engine back to Uninitialized (spec/44_external_primitives.md section 2, R224, R226). -/
def Obligations.EntropyAskedOnlyUnseeded : Prop :=
  ∀ (i : Instr) (s t : State), exec i s = .next t →
    t.entropyDraws = s.entropyDraws +
      (match i with | .nextBytes n => if s.engine.es = .uninitialized ∧ n ≠ 0 then 1 else 0 | _ => 0) ∧
    (s.engine.es ≠ .uninitialized → t.engine.es ≠ .uninitialized)

/-- At most one draw in the life of an instance (spec/44_external_primitives.md section 2, R226): over any number of steps
without a reset, from any state. -/
def Obligations.AtMostOneDrawPerInstance : Prop :=
  ∀ (k : Nat) (s t : State), HostInput.reset ∉ s.inputs → Sys2Proof.core.run k s = .next t →
    t.entropyDraws ≤ s.entropyDraws + 1

/-! ## Hidden state (spec/10_state.md section 11) -/

/-- No output depends on hidden state (R37): two machines that differ at most there, and in no port, answer every command
with the same responses, make the same requests, and differ afterwards at most there. -/
def Obligations.HiddenStateIsUnobservable : Prop :=
  ∀ (i : Instr) (s u s' u' : State), s.engine.FreeLanesZero → u.engine.FreeLanesZero →
    s.engine.SameVisible u.engine → s.responses = u.responses → s.compressRequests = u.compressRequests →
    s.entropyDraws = u.entropyDraws → exec i s = .next s' → exec i u = .next u' →
      s'.responses = u'.responses ∧ s'.compressRequests = u'.compressRequests ∧ s'.entropyDraws = u'.entropyDraws ∧
        s'.engine.SameVisible u'.engine
end

