-- ==== Sys2Proof/Laws/Decode.lean ====
section
/-! SUPPORT. The fields of a descriptor and the decoder over the descriptor's number
(spec/30_encoding.md rules R91 to R97). -/

namespace Sys2Proof

theorem descRsv_toNat (d : Descriptor) : (descRsv d).toNat = d.toNat / 2 ^ 32 % 2 ^ 27 := by
  simp [descRsv, BitVec.extractLsb'_toNat, Nat.shiftRight_eq_div_pow]

theorem descOp_toNat (d : Descriptor) : (descOp d).toNat = d.toNat / 2 ^ 60 := by
  have := d.isLt
  simp [descOp, BitVec.extractLsb'_toNat, Nat.shiftRight_eq_div_pow]
  omega

theorem descV_toNat (d : Descriptor) : (descV d).toNat = d.toNat / 2 ^ 59 % 2 := by
  simp [descV, BitVec.extractLsb'_toNat, Nat.shiftRight_eq_div_pow]

theorem descLen_toNat (d : Descriptor) : (descLen d).toNat = d.toNat % 2 ^ 32 := by
  simp [descLen, BitVec.extractLsb'_toNat, Nat.shiftRight_eq_div_pow]

/-- The decoder (R95) with its tests on the descriptor's number. -/
theorem decode_eq (d : Descriptor) (p : List Byte) :
    decode d p =
      if d.toNat / 2 ^ 32 % 2 ^ 27 ≠ 0 then .error .illegalDescriptor
      else if d.toNat / 2 ^ 60 = 1 ∧ d.toNat / 2 ^ 59 % 2 = 0 then
        if p.length = d.toNat % 2 ^ 32 then .ok (.seed p) else .error .payloadLength
      else if d.toNat / 2 ^ 60 = 2 ∧ d.toNat / 2 ^ 59 % 2 = 1 then .ok (.nextBytes (descLen d))
      else if d.toNat / 2 ^ 60 = 2 ∧ d.toNat / 2 ^ 59 % 2 = 0 then .ok (.nextBytesNull (descLen d))
      else .error .illegalDescriptor := by
  unfold decode
  have e1 : (descRsv d ≠ 0) ↔ (descRsv d).toNat ≠ 0 := by rw [ne_eq, ne_eq, BitVec.toNat_eq]; rfl
  have e2 : ∀ k : BitVec 4, (descOp d = k) ↔ (descOp d).toNat = k.toNat := fun k => BitVec.toNat_eq
  have e3 : ∀ k : BitVec 1, (descV d = k) ↔ (descV d).toNat = k.toNat := fun k => BitVec.toNat_eq
  simp only [← descRsv_toNat, ← descOp_toNat, ← descV_toNat, ← descLen_toNat, e1, e2, e3]
  rfl

end Sys2Proof
end

