-- ==== Sys2Proof/Laws/State.lean ====
section
/-! SUPPORT. One lemma per field per update of the state and of the engine, each true by unfolding once, so that no
later proof unfolds a record update. -/

namespace Sys2Proof.Machine

/-! ## `setEngine` -/

@[simp] theorem State.setEngine_engine (s : State) (e : Engine) :
    (s.setEngine e).engine = e := rfl

@[simp] theorem State.setEngine_inputs (s : State) (e : Engine) :
    (s.setEngine e).inputs = s.inputs := rfl

@[simp] theorem State.setEngine_responses (s : State) (e : Engine) :
    (s.setEngine e).responses = s.responses := rfl

@[simp] theorem State.setEngine_compressRequests (s : State) (e : Engine) :
    (s.setEngine e).compressRequests = s.compressRequests := rfl

@[simp] theorem State.setEngine_entropyDraws (s : State) (e : Engine) :
    (s.setEngine e).entropyDraws = s.entropyDraws := rfl

/-! ## `respond` -/

@[simp] theorem State.respond_engine (s : State) (out : List Byte) (st : Status) :
    (s.respond out st).engine = s.engine := rfl

@[simp] theorem State.respond_inputs (s : State) (out : List Byte) (st : Status) :
    (s.respond out st).inputs = s.inputs := rfl

@[simp] theorem State.respond_responses (s : State) (out : List Byte) (st : Status) :
    (s.respond out st).responses = s.responses ++ [⟨out, st⟩] := rfl

@[simp] theorem State.respond_compressRequests (s : State) (out : List Byte) (st : Status) :
    (s.respond out st).compressRequests = s.compressRequests := rfl

@[simp] theorem State.respond_entropyDraws (s : State) (out : List Byte) (st : Status) :
    (s.respond out st).entropyDraws = s.entropyDraws := rfl

/-! ## `raise` -/

@[simp] theorem State.raise_engine (s : State) (x : Exception) :
    (s.raise x).engine = s.engine := rfl

@[simp] theorem State.raise_inputs (s : State) (x : Exception) :
    (s.raise x).inputs = s.inputs := rfl

@[simp] theorem State.raise_responses (s : State) (x : Exception) :
    (s.raise x).responses = s.responses ++ [⟨[], x.status⟩] := rfl

@[simp] theorem State.raise_compressRequests (s : State) (x : Exception) :
    (s.raise x).compressRequests = s.compressRequests := rfl

@[simp] theorem State.raise_entropyDraws (s : State) (x : Exception) :
    (s.raise x).entropyDraws = s.entropyDraws := rfl

/-! ## `resetEngine` -/

@[simp] theorem State.resetEngine_engine (P : Params) (s : State) :
    (s.resetEngine P).engine = Engine.reset P := rfl

@[simp] theorem State.resetEngine_inputs (P : Params) (s : State) :
    (s.resetEngine P).inputs = s.inputs := rfl

@[simp] theorem State.resetEngine_responses (P : Params) (s : State) :
    (s.resetEngine P).responses = s.responses := rfl

@[simp] theorem State.resetEngine_compressRequests (P : Params) (s : State) :
    (s.resetEngine P).compressRequests = s.compressRequests := rfl

@[simp] theorem State.resetEngine_entropyDraws (P : Params) (s : State) :
    (s.resetEngine P).entropyDraws = s.entropyDraws := rfl

/-! ## `consumed` -/

@[simp] theorem State.consumed_engine (s : State) (rest : List HostInput) :
    (s.consumed rest).engine = s.engine := rfl

@[simp] theorem State.consumed_inputs (s : State) (rest : List HostInput) :
    (s.consumed rest).inputs = rest := rfl

@[simp] theorem State.consumed_responses (s : State) (rest : List HostInput) :
    (s.consumed rest).responses = s.responses := rfl

@[simp] theorem State.consumed_compressRequests (s : State) (rest : List HostInput) :
    (s.consumed rest).compressRequests = s.compressRequests := rfl

@[simp] theorem State.consumed_entropyDraws (s : State) (rest : List HostInput) :
    (s.consumed rest).entropyDraws = s.entropyDraws := rfl

/-! ## `offer` -/

@[simp] theorem State.offer_engine (s : State) (d : Descriptor) (p : List Byte) :
    (s.offer d p).engine = s.engine := rfl

@[simp] theorem State.offer_inputs (s : State) (d : Descriptor) (p : List Byte) :
    (s.offer d p).inputs = .command d p :: s.inputs := rfl

@[simp] theorem State.offer_responses (s : State) (d : Descriptor) (p : List Byte) :
    (s.offer d p).responses = s.responses := rfl

@[simp] theorem State.offer_compressRequests (s : State) (d : Descriptor) (p : List Byte) :
    (s.offer d p).compressRequests = s.compressRequests := rfl

@[simp] theorem State.offer_entropyDraws (s : State) (d : Descriptor) (p : List Byte) :
    (s.offer d p).entropyDraws = s.entropyDraws := rfl

/-! ## The collaborator ports -/

@[simp] theorem State.compress_answer (P : Params) (d : Digest) (m : Block) (s : State) :
    (s.compress P d m).1 = P.compress d m := rfl

@[simp] theorem State.compress_engine (P : Params) (d : Digest) (m : Block) (s : State) :
    (s.compress P d m).2.engine = s.engine := rfl

@[simp] theorem State.compress_inputs (P : Params) (d : Digest) (m : Block) (s : State) :
    (s.compress P d m).2.inputs = s.inputs := rfl

@[simp] theorem State.compress_responses (P : Params) (d : Digest) (m : Block) (s : State) :
    (s.compress P d m).2.responses = s.responses := rfl

@[simp] theorem State.compress_compressRequests (P : Params) (d : Digest) (m : Block) (s : State) :
    (s.compress P d m).2.compressRequests = s.compressRequests ++ [⟨d, m⟩] := rfl

@[simp] theorem State.compress_entropyDraws (P : Params) (d : Digest) (m : Block) (s : State) :
    (s.compress P d m).2.entropyDraws = s.entropyDraws := rfl

@[simp] theorem State.entropy_answer (s : State) : s.entropy.1 = Config.entropyAnswer s.entropyDraws := rfl

@[simp] theorem State.entropy_engine (s : State) : s.entropy.2.engine = s.engine := rfl

@[simp] theorem State.entropy_inputs (s : State) : s.entropy.2.inputs = s.inputs := rfl

@[simp] theorem State.entropy_responses (s : State) : s.entropy.2.responses = s.responses := rfl

@[simp] theorem State.entropy_compressRequests (s : State) : s.entropy.2.compressRequests = s.compressRequests := rfl

@[simp] theorem State.entropy_entropyDraws (s : State) : s.entropy.2.entropyDraws = s.entropyDraws + 1 := rfl

/-! ## `setOcur` -/

@[simp] theorem Engine.setOcur_w (e : Engine) (m : Nat) :
    (e.setOcur m).w = e.w := rfl

@[simp] theorem Engine.setOcur_bc (e : Engine) (m : Nat) :
    (e.setOcur m).bc = e.bc := rfl

@[simp] theorem Engine.setOcur_h (e : Engine) (m : Nat) :
    (e.setOcur m).h = e.h := rfl

@[simp] theorem Engine.setOcur_sl (e : Engine) (m : Nat) :
    (e.setOcur m).sl = e.sl := rfl

@[simp] theorem Engine.setOcur_ctr (e : Engine) (m : Nat) :
    (e.setOcur m).ctr = e.ctr := rfl

@[simp] theorem Engine.setOcur_oc (e : Engine) (m : Nat) :
    (e.setOcur m).oc = e.oc := rfl

@[simp] theorem Engine.setOcur_ocur (e : Engine) (m : Nat) :
    (e.setOcur m).ocur = Fin.ofNat 21 m := rfl

@[simp] theorem Engine.setOcur_es (e : Engine) (m : Nat) :
    (e.setOcur m).es = e.es := rfl

@[simp] theorem Engine.setOcur_hs (e : Engine) (m : Nat) :
    (e.setOcur m).hs = e.hs := rfl

@[simp] theorem Engine.setOcur_sbc (e : Engine) (m : Nat) :
    (e.setOcur m).sbc = e.sbc := rfl

@[simp] theorem Engine.setOcur_layout (e : Engine) (m : Nat) :
    (e.setOcur m).layout = e.layout := rfl

@[simp] theorem Engine.setOcur_t (e : Engine) (m : Nat) :
    (e.setOcur m).t = e.t := rfl

@[simp] theorem Engine.setOcur_g (e : Engine) (m : Nat) :
    (e.setOcur m).g = e.g := rfl

/-! ## `stepCounter` -/

@[simp] theorem Engine.stepCounter_w (e : Engine) :
    (e.stepCounter).w = e.w := rfl

@[simp] theorem Engine.stepCounter_bc (e : Engine) :
    (e.stepCounter).bc = e.bc := rfl

@[simp] theorem Engine.stepCounter_h (e : Engine) :
    (e.stepCounter).h = e.h := rfl

@[simp] theorem Engine.stepCounter_sl (e : Engine) :
    (e.stepCounter).sl = e.sl := rfl

@[simp] theorem Engine.stepCounter_ctr (e : Engine) :
    (e.stepCounter).ctr = e.ctr + 1 := rfl

@[simp] theorem Engine.stepCounter_oc (e : Engine) :
    (e.stepCounter).oc = e.oc := rfl

@[simp] theorem Engine.stepCounter_ocur (e : Engine) :
    (e.stepCounter).ocur = e.ocur := rfl

@[simp] theorem Engine.stepCounter_es (e : Engine) :
    (e.stepCounter).es = e.es := rfl

@[simp] theorem Engine.stepCounter_hs (e : Engine) :
    (e.stepCounter).hs = e.hs := rfl

@[simp] theorem Engine.stepCounter_sbc (e : Engine) :
    (e.stepCounter).sbc = e.sbc := rfl

@[simp] theorem Engine.stepCounter_layout (e : Engine) :
    (e.stepCounter).layout = e.layout := rfl

@[simp] theorem Engine.stepCounter_t (e : Engine) :
    (e.stepCounter).t = e.t := rfl

@[simp] theorem Engine.stepCounter_g (e : Engine) :
    (e.stepCounter).g = e.g := rfl

/-! ## `addSeedLength` -/

@[simp] theorem Engine.addSeedLength_w (e : Engine) (n : Nat) :
    (e.addSeedLength n).w = e.w := rfl

@[simp] theorem Engine.addSeedLength_bc (e : Engine) (n : Nat) :
    (e.addSeedLength n).bc = e.bc := rfl

@[simp] theorem Engine.addSeedLength_h (e : Engine) (n : Nat) :
    (e.addSeedLength n).h = e.h := rfl

@[simp] theorem Engine.addSeedLength_sl (e : Engine) (n : Nat) :
    (e.addSeedLength n).sl = e.sl + BitVec.ofNat 64 n := rfl

@[simp] theorem Engine.addSeedLength_ctr (e : Engine) (n : Nat) :
    (e.addSeedLength n).ctr = e.ctr := rfl

@[simp] theorem Engine.addSeedLength_oc (e : Engine) (n : Nat) :
    (e.addSeedLength n).oc = e.oc := rfl

@[simp] theorem Engine.addSeedLength_ocur (e : Engine) (n : Nat) :
    (e.addSeedLength n).ocur = e.ocur := rfl

@[simp] theorem Engine.addSeedLength_es (e : Engine) (n : Nat) :
    (e.addSeedLength n).es = e.es := rfl

@[simp] theorem Engine.addSeedLength_hs (e : Engine) (n : Nat) :
    (e.addSeedLength n).hs = e.hs := rfl

@[simp] theorem Engine.addSeedLength_sbc (e : Engine) (n : Nat) :
    (e.addSeedLength n).sbc = e.sbc := rfl

@[simp] theorem Engine.addSeedLength_layout (e : Engine) (n : Nat) :
    (e.addSeedLength n).layout = e.layout := rfl

@[simp] theorem Engine.addSeedLength_t (e : Engine) (n : Nat) :
    (e.addSeedLength n).t = e.t := rfl

@[simp] theorem Engine.addSeedLength_g (e : Engine) (n : Nat) :
    (e.addSeedLength n).g = e.g := rfl

/-! ## `serialize` -/

@[simp] theorem serialize_w (d : Digest) (e : Engine) :
    (serialize d e).w = e.w := by simp only [serialize]

@[simp] theorem serialize_bc (d : Digest) (e : Engine) :
    (serialize d e).bc = e.bc := by simp only [serialize]

@[simp] theorem serialize_h (d : Digest) (e : Engine) :
    (serialize d e).h = e.h := by simp only [serialize]

@[simp] theorem serialize_sl (d : Digest) (e : Engine) :
    (serialize d e).sl = e.sl := by simp only [serialize]

@[simp] theorem serialize_ctr (d : Digest) (e : Engine) :
    (serialize d e).ctr = e.ctr := by simp only [serialize]

@[simp] theorem serialize_oc (d : Digest) (e : Engine) :
    (serialize d e).oc = digestBytes d := by simp only [serialize]

@[simp] theorem serialize_ocur (d : Digest) (e : Engine) :
    (serialize d e).ocur = 0 := by simp only [serialize]

@[simp] theorem serialize_es (d : Digest) (e : Engine) :
    (serialize d e).es = e.es := by simp only [serialize]

@[simp] theorem serialize_hs (d : Digest) (e : Engine) :
    (serialize d e).hs = e.hs := by simp only [serialize]

@[simp] theorem serialize_sbc (d : Digest) (e : Engine) :
    (serialize d e).sbc = e.sbc := by simp only [serialize]

@[simp] theorem serialize_layout (d : Digest) (e : Engine) :
    (serialize d e).layout = e.layout := by simp only [serialize]

@[simp] theorem serialize_t (d : Digest) (e : Engine) :
    (serialize d e).t = e.t := by simp only [serialize]

@[simp] theorem serialize_g (d : Digest) (e : Engine) :
    (serialize d e).g = e.g := by simp only [serialize]

/-! ## `finalize` -/

@[simp] theorem finalize_w (P : Params) (e : Engine) :
    (finalize P e).w = e.w := rfl

@[simp] theorem finalize_bc (P : Params) (e : Engine) :
    (finalize P e).bc = e.bc := rfl

@[simp] theorem finalize_h (P : Params) (e : Engine) :
    (finalize P e).h = e.h := rfl

@[simp] theorem finalize_sl (P : Params) (e : Engine) :
    (finalize P e).sl = e.sl := rfl

@[simp] theorem finalize_ctr (P : Params) (e : Engine) :
    (finalize P e).ctr = e.ctr := rfl

@[simp] theorem finalize_oc (P : Params) (e : Engine) :
    (finalize P e).oc = e.oc := rfl

@[simp] theorem finalize_ocur (P : Params) (e : Engine) :
    (finalize P e).ocur = e.ocur := rfl

@[simp] theorem finalize_es (P : Params) (e : Engine) :
    (finalize P e).es = .expanding := rfl

@[simp] theorem finalize_hs (P : Params) (e : Engine) :
    (finalize P e).hs = e.h := rfl

@[simp] theorem finalize_sbc (P : Params) (e : Engine) :
    (finalize P e).sbc = e.bc := rfl

@[simp] theorem finalize_layout (P : Params) (e : Engine) :
    (finalize P e).layout = layoutOf e.bc := rfl

@[simp] theorem finalize_t (P : Params) (e : Engine) :
    (finalize P e).t = placeTrailer (template e.w e.bc) (layoutOf e.bc) (lenBits P e.sl) := rfl

@[simp] theorem finalize_g (P : Params) (e : Engine) :
    (finalize P e).g = e.g := rfl

/-- A cursor that the engine writes is at most 20, so the write loses nothing. -/
theorem Engine.setOcur_val (e : Engine) {m : Nat} (h : m ≤ 20) : (e.setOcur m).ocur.val = m := by
  exact Nat.mod_eq_of_lt (by omega)

/-- Writing back the cursor an engine has changes nothing. -/
@[simp] theorem Engine.setOcur_self (e : Engine) : e.setOcur e.ocur.val = e := by
  have h : Fin.ofNat 21 e.ocur.val = e.ocur := Fin.ext (Nat.mod_eq_of_lt e.ocur.isLt)
  unfold Engine.setOcur
  rw [h]

/-- Writing back the engine a state has changes nothing. -/
@[simp] theorem State.setEngine_self (s : State) : s.setEngine s.engine = s := rfl

/-- The later of two engine writes stands. -/
@[simp] theorem State.setEngine_setEngine (s : State) (e f : Engine) : (s.setEngine e).setEngine f = s.setEngine f := rfl

end Sys2Proof.Machine
end

