-- ==== Sys2Proof/Laws/Operands.lean ====
section
/-! SUPPORT. What the byte accesses to words and word buffers do: lanes, bytes at addresses, reads and writes
(spec/00_scope.md rule R10, spec/20_memory.md rules R61 to R64). -/

namespace Sys2Proof.Machine

/-! ## Lanes -/

theorem lane_or (a b : Word) (j : Nat) : lane (a ||| b) j = lane a j ||| lane b j := by
  simp [lane, BitVec.extractLsb'_or]

theorem lane_and (a b : Word) (j : Nat) : lane (a &&& b) j = lane a j &&& lane b j := by
  simp [lane, BitVec.extractLsb'_and]

theorem lane_not (a : Word) {j : Nat} (hj : j < 4) : lane (~~~a) j = ~~~(lane a j) := by
  apply BitVec.eq_of_getLsbD_eq
  intro i hi
  have h1 : 24 - 8 * j + i < 32 := by omega
  simp [lane, laneShift, hi, h1]

@[simp] theorem lane_zero (j : Nat) : lane 0#32 j = 0#8 := by
  simp [lane]

theorem lane_byteInLane_self (b : Byte) {j : Nat} (hj : j < 4) : lane (byteInLane b j) j = b := by
  apply BitVec.eq_of_getLsbD_eq
  intro i hi
  have h1 : 24 - 8 * j + i < 32 := by omega
  simp [lane, byteInLane, laneShift, hi, h1]

theorem lane_byteInLane_of_ne (b : Byte) {j k : Nat} (hj : j < 4) (hk : k < 4) (h : j ≠ k) :
    lane (byteInLane b j) k = 0 := by
  apply BitVec.eq_of_getLsbD_eq
  intro i hi
  have hlt : ∀ n, 8 ≤ n → b.getLsbD n = false := fun n hn => BitVec.getLsbD_of_ge b n hn
  simp [lane, byteInLane, laneShift]
  intro _ _ _ _
  apply hlt
  omega

/-- A byte in a lane: that lane holds it, the other lanes are zero. -/
theorem lane_byteInLane (b : Byte) {j k : Nat} (hj : j < 4) (hk : k < 4) :
    lane (byteInLane b j) k = if k = j then b else 0#8 := by
  split_ifs with h
  · subst h
    exact lane_byteInLane_self b hk
  · exact lane_byteInLane_of_ne b hj hk (Ne.symm h)

/-- Two words with the same four lanes are the same word. -/
theorem word_ext_lanes {a b : Word} (h : ∀ j < 4, lane a j = lane b j) : a = b := by
  apply BitVec.eq_of_getLsbD_eq
  intro i hi
  have hl := congrArg (fun x : Byte => x.getLsbD (i % 8)) (h (3 - i / 8) (by omega))
  have e : 24 - 8 * (3 - i / 8) + i % 8 = i := by omega
  simpa [lane, laneShift, e, Nat.mod_lt] using hl

/-- A word with one lane replaced: that lane holds the byte, the others are as they were. -/
theorem lane_setLane (w : Word) (b : Byte) {j k : Nat} (hj : j < 4) (hk : k < 4) :
    lane (setLane w j b) k = if k = j then b else lane w k := by
  unfold setLane
  rw [lane_or, lane_and, lane_not _ hk, lane_byteInLane _ hj hk, lane_byteInLane _ hj hk]
  split_ifs with h
  · rw [show ~~~(0xFF : Byte) = 0#8 by decide, BitVec.and_zero, BitVec.zero_or]
  · rw [show ~~~0#8 = BitVec.allOnes 8 by decide, BitVec.and_allOnes, BitVec.or_zero]

theorem getLsbD_wordOfBytes (b0 b1 b2 b3 : Byte) (i : Nat) :
    (wordOfBytes b0 b1 b2 b3).getLsbD i =
      if i < 8 then b3.getLsbD i else if i < 16 then b2.getLsbD (i - 8)
      else if i < 24 then b1.getLsbD (i - 16) else b0.getLsbD (i - 24) := by
  unfold wordOfBytes
  erw [BitVec.getLsbD_append, BitVec.getLsbD_append, BitVec.getLsbD_append]
  split_ifs <;> first | (exfalso; omega) | rfl

/-- Four bytes as a word: lane `j` is byte `j`. -/
theorem lane_wordOfBytes (b0 b1 b2 b3 : Byte) {j : Nat} (hj : j < 4) :
    lane (wordOfBytes b0 b1 b2 b3) j = [b0, b1, b2, b3].getD j 0 := by
  have h : j = 0 ∨ j = 1 ∨ j = 2 ∨ j = 3 := by omega
  apply BitVec.eq_of_getLsbD_eq
  intro i hi
  rw [lane, BitVec.getLsbD_extractLsb', getLsbD_wordOfBytes]
  rcases h with rfl | rfl | rfl | rfl <;> simp [laneShift, hi] <;> grind

theorem be32_wordOfBytes (b0 b1 b2 b3 : Byte) : be32 (wordOfBytes b0 b1 b2 b3) = [b0, b1, b2, b3] := by
  simp [be32, lane_wordOfBytes]

/-! ## Bytes of a word buffer -/

theorem getD_eq_getElem? {α : Type} {n : Nat} (B : Vector α n) (i : Nat) (d : α) : B.getD i d = B[i]?.getD d := by
  simp [Vector.getD, Array.getD_eq_getD_getElem?]

/-- A byte of a buffer with one word replaced. -/
theorem byteAt_setIfInBounds {n : Nat} (B : Vector Word n) (i k : Nat) (w : Word) :
    byteAt (B.setIfInBounds i w) k = if k / 4 = i ∧ i < n then lane w (k % 4) else byteAt B k := by
  unfold byteAt
  simp only [getD_eq_getElem?, Vector.getElem?_setIfInBounds]
  by_cases h : i = k / 4
  · subst h
    by_cases hn : k / 4 < n
    · simp [hn]
    · simp [hn]
  · simp [h, Ne.symm h]

/-- A byte of a buffer with one byte replaced (R64). -/
theorem byteAt_setByteAt {n : Nat} (B : Vector Word n) (a k : Nat) (b : Byte) :
    byteAt (setByteAt B a b) k = if k = a ∧ a < 4 * n then b else byteAt B k := by
  unfold setByteAt
  rw [byteAt_setIfInBounds]
  by_cases hw : k / 4 = a / 4 ∧ a / 4 < n
  · rw [if_pos hw, lane_setLane _ _ (Nat.mod_lt _ (by omega)) (Nat.mod_lt _ (by omega))]
    by_cases h : k = a
    · rw [if_pos (by omega), if_pos ⟨h, by omega⟩]
    · rw [if_neg (by omega), if_neg (fun c => h c.1), ← hw.1]
      rfl
  · rw [if_neg hw, if_neg (by omega)]

/-- A byte of a buffer after a write of bytes: exactly the addressed lanes are replaced (R64). -/
theorem byteAt_writeBytes {n : Nat} (v : List Byte) (B : Vector Word n) (a k : Nat) (h : a + v.length ≤ 4 * n) :
    byteAt (writeBytes B a v) k = if a ≤ k ∧ k < a + v.length then v.getD (k - a) 0 else byteAt B k := by
  induction v generalizing B a with
  | nil => rw [if_neg (by simp)]; rfl
  | cons b bs ih =>
    simp only [List.length_cons] at h ⊢
    rw [writeBytes, ih _ _ (by omega), byteAt_setByteAt]
    by_cases h1 : k = a
    · subst h1
      rw [if_neg (by omega), if_pos ⟨rfl, by omega⟩, if_pos (by omega), Nat.sub_self, List.getD_cons_zero]
    · by_cases h2 : a + 1 ≤ k ∧ k < a + 1 + bs.length
      · rw [if_pos h2, if_pos (by omega), show k - a = (k - (a + 1)) + 1 by omega, List.getD_cons_succ]
      · rw [if_neg h2, if_neg (by omega), if_neg (by omega)]

/-- Two buffers with the same bytes are the same buffer. -/
theorem buffer_ext_bytes {n : Nat} {B C : Vector Word n} (h : ∀ k < 4 * n, byteAt B k = byteAt C k) : B = C := by
  apply Vector.ext
  intro i hi
  apply word_ext_lanes
  intro j hj
  have := h (4 * i + j) (by omega)
  simpa [byteAt, getD_eq_getElem?, show (4 * i + j) / 4 = i by omega, show (4 * i + j) % 4 = j by omega, hi] using this

@[simp] theorem byteAt_replicate_zero (n k : Nat) : byteAt (Vector.replicate n 0#32) k = 0#8 := by
  unfold byteAt
  simp only [getD_eq_getElem?, Vector.getElem?_replicate]
  split_ifs <;> simp

/-- The bytes of the two frames of a pair (R30). -/
theorem byteAt_frame1 (g : Work) {k : Nat} (h : k < 64) : byteAt (frame1 g) k = byteAt g k := by
  have h1 : k / 4 < 16 := by omega
  have h2 : k / 4 < 32 := by omega
  simp [byteAt, getD_eq_getElem?, frame1, h1, h2]

theorem byteAt_frame2 (g : Work) {k : Nat} (h : k < 64) : byteAt (frame2 g) k = byteAt g (64 + k) := by
  have h1 : k / 4 < 16 := by omega
  have h2 : 16 + k / 4 < 32 := by omega
  simp [byteAt, getD_eq_getElem?, frame2, h1, h2, show (64 + k) / 4 = 16 + k / 4 by omega,
    show (64 + k) % 4 = k % 4 by omega]

/-! ## Reads of bytes -/

@[simp] theorem readBytes_length {w : Nat} (B : Vector Word w) (a n : Nat) : (readBytes B a n).length = n := by
  simp [readBytes]

theorem readBytes_getD {w : Nat} (B : Vector Word w) {a n i : Nat} (h : i < n) :
    (readBytes B a n).getD i 0 = byteAt B (a + i) := by
  simp [readBytes, h]

@[simp] theorem readBytes_zero {w : Nat} (B : Vector Word w) (a : Nat) : readBytes B a 0 = [] := rfl

theorem readBytes_succ {w : Nat} (B : Vector Word w) (a n : Nat) :
    readBytes B a (n + 1) = readBytes B a n ++ [byteAt B (a + n)] := by
  simp [readBytes, List.range_succ]

/-- Two reads that agree byte by byte are the same. -/
theorem readBytes_congr {w u : Nat} {B : Vector Word w} {C : Vector Word u} {a n : Nat}
    (h : ∀ i < n, byteAt B (a + i) = byteAt C (a + i)) : readBytes B a n = readBytes C a n := by
  simp only [readBytes]
  exact List.map_congr_left fun i hi => h i (List.mem_range.mp hi)

theorem byteAt_of_readBytes_eq {w u : Nat} {B : Vector Word w} {C : Vector Word u} {a n : Nat}
    (h : readBytes B a n = readBytes C a n) {i : Nat} (hi : i < n) : byteAt B (a + i) = byteAt C (a + i) := by
  rw [← readBytes_getD B hi, ← readBytes_getD C hi, h]

/-! ## Byte sequences of words -/

@[simp] theorem be64_length (v : DWord) : (be64 v).length = 8 := rfl

theorem be64_getD (v : DWord) {i : Nat} (h : i < 8) : (be64 v).getD i 0 = v.extractLsb' (56 - 8 * i) 8 := by
  simp [be64, h]

theorem lane_hiWord (v : DWord) {j : Nat} (hj : j < 4) : lane (hiWord v) j = (be64 v).getD j 0 := by
  rw [be64_getD v (by omega)]
  apply BitVec.eq_of_getLsbD_eq
  intro i hi
  have h1 : 24 - 8 * j + i < 32 := by omega
  simp [lane, hiWord, laneShift, hi, h1, show 32 + (24 - 8 * j + i) = 56 - 8 * j + i by omega]

theorem lane_loWord (v : DWord) {j : Nat} (hj : j < 4) : lane (loWord v) j = (be64 v).getD (4 + j) 0 := by
  rw [be64_getD v (by omega)]
  apply BitVec.eq_of_getLsbD_eq
  intro i hi
  have h1 : 24 - 8 * j + i < 32 := by omega
  simp [lane, loWord, laneShift, hi, show 24 - 8 * j + i = 56 - 8 * (4 + j) + i by omega]

/-! ## The carry and the output buffer -/

theorem memRead_carry (e : Engine) (a n : Nat) : e.memRead .carry a n = (e.oc.toList.drop a).take n := rfl

/-- A write at the end of what is written so far (R190: `o` is the number of bytes written). -/
@[simp] theorem writeOut_at_end (out v : List Byte) : writeOut out out.length v = out ++ v := by
  simp [writeOut]

@[simp] theorem writeOut_nil (v : List Byte) : writeOut [] 0 v = v := by
  simp [writeOut]

/-! ## Words on a port -/

/-- Word `i` of `n` words in a row stands `n - 1 - i` words from the least significant end (R99). -/
theorem concatWords_word (ws : List Word) {n i : Nat} (hn : ws.length = n) (h : i < n) :
    (concatWords ws).extractLsb' (32 * (n - 1 - i)) 32 = ws.getD i 0 := by
  subst hn
  induction ws generalizing i with
  | nil => simp at h
  | cons w ws ih =>
    simp only [List.length_cons] at h ⊢
    apply BitVec.eq_of_getLsbD_eq
    intro b hb
    have e : ((concatWords (w :: ws)).extractLsb' (32 * (ws.length + 1 - 1 - i)) 32).getLsbD b =
        (w ++ concatWords ws).getLsbD (32 * (ws.length - i) + b) := by
      rw [BitVec.getLsbD_extractLsb']
      simp only [hb, decide_true, Bool.true_and, Nat.add_sub_cancel, concatWords]
      rw [BitVec.getLsbD_cast]
    rw [e, BitVec.getLsbD_append]
    cases i with
    | zero =>
      rw [Nat.sub_zero, if_neg (by omega)]
      simp
    | succ i =>
      have hi := congrArg (fun x => x.getLsbD b) (ih (i := i) (by omega))
      rw [if_pos (by omega)]
      simp only [BitVec.getLsbD_extractLsb', hb, decide_true, Bool.true_and] at hi
      rw [show ws.length - (i + 1) = ws.length - 1 - i by omega, hi]
      simp

/-- SERIALIZE is big-endian (R62, R196): the words of the digest in order, each most significant byte first. -/
theorem digestBytes_toList (d : Digest) : (digestBytes d).toList = d.toList.flatMap be32 := by
  rcases d with ⟨⟨l⟩, hl⟩
  match l, hl with
  | [a, b, c, d, e], _ => rfl

end Sys2Proof.Machine
end

