-- ==== Sys2Proof/Laws/Packer.lean ====
section
/-! SUPPORT. What APPEND does: it puts one byte after another, so two APPENDs in a row are one; and the bytes of the
buffer afterwards (spec/40_block_packer.md rules R124 to R129). -/

namespace Sys2Proof.Machine

/-! ## APPEND byte by byte -/

/-- One byte put at the cursor: ORed into a word that is already begun, assigned to a fresh one. -/
def pushByte {n : Nat} (B : Vector Word n) (c : Nat) (b : Byte) : Vector Word n :=
  B.setIfInBounds (c / 4) ((if c % 4 = 0 then 0 else B.getD (c / 4) 0) ||| byteInLane b (c % 4))

/-- Bytes put one after another. -/
def pushBytes {n : Nat} (B : Vector Word n) : List Byte → Nat → Vector Word n × Nat
  | [], c => (B, c)
  | b :: bs, c => pushBytes (pushByte B c b) bs (c + 1)

theorem pushBytes_append {n : Nat} (s t : List Byte) (B : Vector Word n) (c : Nat) :
    pushBytes B (s ++ t) c = pushBytes (pushBytes B s c).1 t (pushBytes B s c).2 := by
  induction s generalizing B c with
  | nil => rfl
  | cons b bs ih => exact ih _ _

theorem pushBytes_cursor {n : Nat} (bs : List Byte) (B : Vector Word n) (c : Nat) :
    (pushBytes B bs c).2 = c + bs.length := by
  induction bs generalizing B c with
  | nil => rfl
  | cons b bs ih => rw [pushBytes, ih]; simp; omega

/-- Phase (a) is pushes: what it takes, the rest can be pushed after it. -/
theorem appendMidWord_push {n : Nat} (bs : List Byte) (B : Vector Word n) (c : Nat) :
    pushBytes (appendMidWord B bs c).1 (appendMidWord B bs c).2.1 (appendMidWord B bs c).2.2 = pushBytes B bs c ∧
      ((appendMidWord B bs c).2.1 ≠ [] → (appendMidWord B bs c).2.2 % 4 = 0) := by
  induction bs generalizing B c with
  | nil => simp [appendMidWord]
  | cons b bs ih =>
    unfold appendMidWord
    by_cases h : c % 4 = 0
    · simp [midWord, h]
    · simp only [midWord, bne_iff_ne, ne_eq, h, not_false_eq_true, ↓reduceIte]
      rw [pushBytes, pushByte, if_neg h]
      exact ih _ _

theorem pushBytes_singleton_tail {n : Nat} (B : Vector Word n) (o : Nat) (c : Nat) (w : Word) (bs : List Byte)
    (hc : c % 4 = 0) (ho : 0 < o) (h : o + bs.length ≤ 4) :
    pushBytes (B.setIfInBounds (c / 4) w) bs (c + o) =
      (B.setIfInBounds (c / 4) (packPartialWord w o bs), c + o + bs.length) := by
  induction bs generalizing o w with
  | nil => simp [pushBytes, packPartialWord]
  | cons b bs ih =>
    simp only [List.length_cons] at h
    have e1 : (c + o) / 4 = c / 4 := by omega
    have e2 : (c + o) % 4 = o := by omega
    rw [pushBytes, pushByte, e1, e2, if_neg (by omega), packPartialWord]
    have e3 : (B.setIfInBounds (c / 4) w).setIfInBounds (c / 4)
        ((B.setIfInBounds (c / 4) w).getD (c / 4) 0 ||| byteInLane b o) =
        B.setIfInBounds (c / 4) (w ||| byteInLane b o) := by
      apply Vector.ext
      intro i hi
      simp only [getD_eq_getElem?, Vector.getElem_setIfInBounds, Vector.getElem?_setIfInBounds]
      by_cases hw : c / 4 = i
      · simp [hw, hi]
      · simp [hw]
    rw [e3, Nat.add_assoc, ih (o + 1) _ (by omega) (by omega)]
    simp; omega

/-- Phase (c) is pushes. -/
theorem appendTail_push {n : Nat} (B : Vector Word n) (bs : List Byte) (c : Nat) (hc : bs ≠ [] → c % 4 = 0)
    (h : bs.length ≤ 3) : appendTail B bs c = pushBytes B bs c := by
  cases bs with
  | nil => simp [appendTail, pushBytes]
  | cons b bs =>
    have hc := hc (by simp)
    simp only [List.length_cons] at h
    rw [pushBytes, pushByte, hc, if_pos rfl, pushBytes_singleton_tail B 1 c _ bs hc (by omega) (by omega)]
    simp [appendTail, packPartialWord]; omega

theorem wordOfBytes_eq_pack (b0 b1 b2 b3 : Byte) : wordOfBytes b0 b1 b2 b3 = packPartialWord 0 0 [b0, b1, b2, b3] := by
  apply word_ext_lanes
  intro j hj
  rw [lane_wordOfBytes _ _ _ _ hj]
  simp only [packPartialWord, lane_or, lane_byteInLane _ (show 0 < 4 by omega) hj, lane_byteInLane _ (show 0 + 1 < 4 by omega) hj,
    lane_byteInLane _ (show 0 + 1 + 1 < 4 by omega) hj, lane_byteInLane _ (show 0 + 1 + 1 + 1 < 4 by omega) hj]
  have h : j = 0 ∨ j = 1 ∨ j = 2 ∨ j = 3 := by omega
  rcases h with rfl | rfl | rfl | rfl <;> simp

/-- Four pushes from an aligned cursor are one word written. -/
theorem pushBytes_word {n : Nat} (B : Vector Word n) (b0 b1 b2 b3 : Byte) (bs : List Byte) (c : Nat) (hc : c % 4 = 0) :
    pushBytes B (b0 :: b1 :: b2 :: b3 :: bs) c =
      pushBytes (B.setIfInBounds (c / 4) (wordOfBytes b0 b1 b2 b3)) bs (c + 4) := by
  have h : pushBytes B [b0, b1, b2, b3] c = (B.setIfInBounds (c / 4) (wordOfBytes b0 b1 b2 b3), c + 4) := by
    rw [wordOfBytes_eq_pack, pushBytes, pushByte, hc, if_pos rfl,
      pushBytes_singleton_tail B 1 c _ [b1, b2, b3] hc (by omega) (by simp)]
    rfl
  rw [show b0 :: b1 :: b2 :: b3 :: bs = [b0, b1, b2, b3] ++ bs from rfl, pushBytes_append, h]

/-- Phases (b) and (c) are pushes, from an aligned cursor. -/
theorem appendWords_push {n : Nat} : ∀ (bs : List Byte) (B : Vector Word n) (c : Nat), (bs ≠ [] → c % 4 = 0) →
    appendTail (appendWords B bs c).1 (appendWords B bs c).2.1 (appendWords B bs c).2.2 = pushBytes B bs c
  | b0 :: b1 :: b2 :: b3 :: bs, B, c, hc => by
    have h4 := hc (by simp)
    rw [appendWords, appendWords_push bs _ _ (fun _ => by omega), pushBytes_word B b0 b1 b2 b3 bs c h4]
  | [], B, c, hc => appendTail_push B [] c hc (by simp)
  | [b0], B, c, hc => appendTail_push B [b0] c hc (by simp)
  | [b0, b1], B, c, hc => appendTail_push B [b0, b1] c hc (by simp)
  | [b0, b1, b2], B, c, hc => appendTail_push B [b0, b1, b2] c hc (by simp)

/-- APPEND is pushing byte after byte (R124). -/
theorem appendBytes_eq_push {n : Nat} (B : Vector Word n) (bs : List Byte) (c : Nat) :
    appendBytes B bs c = pushBytes B bs c := by
  have h := appendMidWord_push bs B c
  rw [appendBytes, appendWords_push _ _ _ h.2, h.1]

theorem append_eq_push {n : Nat} (B : Vector Word n) (src : List Byte) (first last cur : Nat) :
    append B src first last cur = pushBytes B ((src.drop first).take (last - first)) cur := appendBytes_eq_push _ _ _

/-! ## The bytes of a buffer after APPEND (R129) -/

/-- The zero-lane condition of R127: at a mid-word cursor, the lanes of that word from the cursor on are zero. -/
abbrev ZeroLanes {n : Nat} (B : Vector Word n) (c : Nat) : Prop :=
  c % 4 ≠ 0 → ∀ k, c ≤ k → k / 4 = c / 4 → byteAt B k = 0

/-- A byte after one push inside the buffer. -/
theorem byteAt_pushByte {n : Nat} (B : Vector Word n) (c : Nat) (b : Byte) (k : Nat) (h : c < 4 * n) (hz : ZeroLanes B c) :
    byteAt (pushByte B c b) k =
      if k = c then b else if c < k ∧ k / 4 = c / 4 then 0#8 else byteAt B k := by
  have hk : k % 4 < 4 := Nat.mod_lt _ (by omega)
  have hc : c % 4 < 4 := Nat.mod_lt _ (by omega)
  rw [pushByte, byteAt_setIfInBounds]
  by_cases hw : k / 4 = c / 4
  · rw [if_pos ⟨hw, by omega⟩, lane_or, lane_byteInLane _ hc hk]
    by_cases ha : c % 4 = 0
    · rw [if_pos ha]
      by_cases hkc : k = c
      · rw [if_pos (by rw [hkc]), if_pos hkc]
        simp
      · rw [if_neg (by omega), if_neg hkc, if_pos (by omega)]
        simp
    · rw [if_neg ha]
      have hb : lane (B.getD (c / 4) 0) (k % 4) = byteAt B k := by rw [byteAt, hw]
      rw [hb]
      by_cases hkc : k = c
      · subst hkc
        rw [if_pos rfl, if_pos rfl, hz ha k (by omega) rfl]
        simp
      · rw [if_neg (by omega), if_neg hkc]
        by_cases hlt : c < k
        · rw [if_pos ⟨hlt, hw⟩, hz ha k (by omega) hw]
          simp
        · rw [if_neg (by omega)]
          simp
  · rw [if_neg (fun x => hw x.1), if_neg (fun x => hw (by rw [x])), if_neg (fun x => hw x.2)]

/-- A push keeps the zero-lane condition at the cursor after it. -/
theorem zeroLanes_pushByte {n : Nat} (B : Vector Word n) (c : Nat) (b : Byte) (h : c < 4 * n) (hz : ZeroLanes B c) :
    ZeroLanes (pushByte B c b) (c + 1) := by
  intro h4 k hk hw
  rw [byteAt_pushByte B c b k h hz, if_neg (by omega), if_pos (by omega)]
  rfl

/-- APPEND's pushes keep the zero-lane condition. -/
theorem zeroLanes_pushBytes {n : Nat} (bs : List Byte) (B : Vector Word n) (c : Nat) (h : c + bs.length ≤ 4 * n)
    (hz : ZeroLanes B c) : ZeroLanes (pushBytes B bs c).1 (c + bs.length) := by
  induction bs generalizing B c with
  | nil => exact hz
  | cons b bs ih =>
    simp only [List.length_cons] at h ⊢
    rw [pushBytes, show c + (bs.length + 1) = c + 1 + bs.length by omega]
    exact ih _ _ (by omega) (zeroLanes_pushByte B c b (by omega) hz)

/-- The bytes of the buffer after pushes that fit and start with zero lanes (R129): the pushed bytes at the cursor, zero
in the rest of the last word, everything else as it was. -/
theorem byteAt_pushBytes {n : Nat} (bs : List Byte) (B : Vector Word n) (c k : Nat) (h : c + bs.length ≤ 4 * n)
    (hz : ZeroLanes B c) :
    byteAt (pushBytes B bs c).1 k =
      if c ≤ k ∧ k < c + bs.length then bs.getD (k - c) 0
      else if c + bs.length ≤ k ∧ k / 4 = (c + bs.length) / 4 ∧ (c + bs.length) % 4 ≠ 0 then 0#8
      else byteAt B k := by
  induction bs generalizing B c with
  | nil =>
    simp only [List.length_nil, Nat.add_zero] at h ⊢
    rw [if_neg (by omega)]
    split_ifs with hk
    · exact hz hk.2.2 k hk.1 hk.2.1
    · rfl
  | cons b bs ih =>
    simp only [List.length_cons] at h ⊢
    rw [pushBytes, ih _ _ (by omega) (zeroLanes_pushByte B c b (by omega) hz), byteAt_pushByte B c b k (by omega) hz,
      show c + 1 + bs.length = c + (bs.length + 1) by omega]
    by_cases hkc : k = c
    · subst hkc
      rw [if_neg (by omega), if_neg (by omega), if_pos rfl, if_pos (by omega), Nat.sub_self, List.getD_cons_zero]
    · by_cases h1 : c + 1 ≤ k ∧ k < c + (bs.length + 1)
      · rw [if_pos h1, if_pos (by omega), show k - c = (k - (c + 1)) + 1 by omega, List.getD_cons_succ]
      · rw [if_neg h1, if_neg (show ¬(c ≤ k ∧ k < c + (bs.length + 1)) by omega), if_neg hkc]
        split_ifs <;> first | rfl | (exfalso; omega)

end Sys2Proof.Machine
end

