-- ==== Sys2Proof/Laws/Seed.lean ====
section
/-! SUPPORT. What ABSORB and SEED do: ABSORB takes one byte after another, so two ABSORBs in a row are one; what it
leaves in the seed registers; what it leaves alone (spec/41_seed_accumulator.md rules R140 to R150). -/

namespace Sys2Proof.Machine

/-! ## ABSORB byte by byte -/

/-- One byte absorbed: put at `BC`; the 64th byte of the block fires the compression (R141). -/
def absorbByte (P : Params) (s : State) (b : Byte) : State :=
  let e := s.engine
  let w := pushByte e.w e.bc.toNat b
  if e.bc.toNat = 63 then
    (s.compress P e.h w).2.setEngine { e with w := w, h := P.compress e.h w, bc := 0 }
  else s.setEngine { e with w := w, bc := e.bc + 1 }

theorem byteCount_succ {c : BitVec 6} (h : c.toNat ≠ 63) : (c + 1).toNat = c.toNat + 1 := by
  have := c.isLt
  rw [BitVec.toNat_add]
  simp
  omega

/-- Bytes that fit the frame, absorbed one by one: the buffer after the pushes, and the compression if it is full. -/
theorem absorbBytes_within (P : Params) (bs : List Byte) (s : State) (hne : bs ≠ [])
    (h : s.engine.bc.toNat + bs.length ≤ 64) :
    bs.foldl (absorbByte P) s =
      let w := (pushBytes s.engine.w bs s.engine.bc.toNat).1
      if s.engine.bc.toNat + bs.length = 64 then
        (s.compress P s.engine.h w).2.setEngine { s.engine with w := w, h := P.compress s.engine.h w, bc := 0 }
      else s.setEngine { s.engine with w := w, bc := BitVec.ofNat 6 (s.engine.bc.toNat + bs.length) } := by
  induction bs generalizing s with
  | nil => exact absurd rfl hne
  | cons b bs ih =>
    simp only [List.length_cons] at h
    cases bs with
    | nil =>
      simp only [List.foldl_cons, List.foldl_nil, absorbByte, pushBytes, List.length_singleton]
      by_cases hb : s.engine.bc.toNat = 63
      · rw [if_pos hb, if_pos (by omega)]
      · rw [if_neg hb, if_neg (by omega)]
        have e : s.engine.bc + 1 = BitVec.ofNat 6 (s.engine.bc.toNat + 1) := by
          apply BitVec.eq_of_toNat_eq
          rw [byteCount_succ hb, BitVec.toNat_ofNat]
          omega
        rw [e]
    | cons b2 bs =>
      have hb : s.engine.bc.toNat ≠ 63 := by simp only [List.length_cons] at h; omega
      have e1 : absorbByte P s b =
          s.setEngine { s.engine with w := pushByte s.engine.w s.engine.bc.toNat b, bc := s.engine.bc + 1 } := by
        rw [absorbByte]
        exact if_neg hb
      have e2 := byteCount_succ hb
      rw [List.foldl_cons, ih _ (by simp) (by rw [e1]; simp only [State.setEngine_engine, e2]; omega), e1]
      simp only [State.setEngine_engine, e2, List.length_cons, pushBytes]
      by_cases hf : s.engine.bc.toNat + (bs.length + 1 + 1) = 64
      · rw [if_pos (by omega), if_pos hf]
        rfl
      · rw [if_neg (by omega), if_neg hf, show s.engine.bc.toNat + 1 + (bs.length + 1) = s.engine.bc.toNat + (bs.length + 1 + 1) by omega]
        rfl

/-- A chunk that fits the frame is absorbed byte by byte. -/
theorem absorbChunk_eq_bytes (P : Params) (bytes : List Byte) (ch : Nat) (s : State) (h0 : 0 < ch)
    (hl : ch ≤ bytes.length) (h : s.engine.bc.toNat + ch ≤ 64) :
    absorbChunk P bytes ch s = (bytes.take ch).foldl (absorbByte P) s := by
  have hlen : (bytes.take ch).length = ch := by simp [hl]
  have hne : bytes.take ch ≠ [] := fun e => by rw [e] at hlen; simp at hlen; omega
  rw [absorbBytes_within P _ s hne (by rw [hlen]; exact h), absorbChunk]
  simp only [append_eq_push, List.drop_zero, Nat.sub_zero, pushBytes_cursor, hlen, full, beq_iff_eq,
    State.compress_answer]

/-- ABSORB's loop absorbs byte by byte (R140). -/
theorem absorbLoop_eq_bytes (P : Params) (fuel : Nat) (bytes : List Byte) (s : State) (h : bytes.length ≤ fuel) :
    absorbLoop P fuel bytes s = bytes.foldl (absorbByte P) s := by
  induction fuel generalizing bytes s with
  | zero =>
    have : bytes = [] := List.length_eq_zero_iff.mp (by omega)
    subst this
    rfl
  | succ fuel ih =>
    rw [absorbLoop]
    by_cases hb : bytes = []
    · subst hb
      rfl
    · have hpos : 0 < bytes.length := List.length_pos_iff.mpr hb
      have hbc := s.engine.bc.isLt
      simp only [if_neg hb]
      rw [absorbChunk_eq_bytes P bytes _ s (by omega) (by omega) (by omega), ih _ _ (by simp; omega), ← List.foldl_append,
        List.take_append_drop]

/-- ABSORB (R140): the bytes one by one, and then the seed length. -/
theorem absorb_eq_bytes (P : Params) (bytes : List Byte) (s : State) :
    absorb P bytes s =
      (bytes.foldl (absorbByte P) s).setEngine ((bytes.foldl (absorbByte P) s).engine.addSeedLength bytes.length) := by
  rw [absorb, absorbLoop_eq_bytes P _ _ _ (Nat.le_refl _)]

/-- The byte that completes a block (R141). -/
theorem absorbByte_full (P : Params) (s : State) (b : Byte) (h : s.engine.bc.toNat = 63) :
    absorbByte P s b =
      (s.compress P s.engine.h (pushByte s.engine.w s.engine.bc.toNat b)).2.setEngine
        { s.engine with
          w := pushByte s.engine.w s.engine.bc.toNat b
          h := P.compress s.engine.h (pushByte s.engine.w s.engine.bc.toNat b)
          bc := 0 } := by
  rw [absorbByte]
  exact if_pos h

/-- A byte that leaves the block open. -/
theorem absorbByte_open (P : Params) (s : State) (b : Byte) (h : s.engine.bc.toNat ≠ 63) :
    absorbByte P s b =
      s.setEngine { s.engine with w := pushByte s.engine.w s.engine.bc.toNat b, bc := s.engine.bc + 1 } := by
  rw [absorbByte]
  exact if_neg h

/-! ## What absorbing leaves alone -/

/-- An operation that reads and writes the seed registers W, BC, H, SL only, and of the ports the compression port. -/
structure SeedOnly (s u : State) : Prop where
  ctr : u.engine.ctr = s.engine.ctr
  oc : u.engine.oc = s.engine.oc
  ocur : u.engine.ocur = s.engine.ocur
  es : u.engine.es = s.engine.es
  hs : u.engine.hs = s.engine.hs
  sbc : u.engine.sbc = s.engine.sbc
  layout : u.engine.layout = s.engine.layout
  t : u.engine.t = s.engine.t
  g : u.engine.g = s.engine.g
  inputs : u.inputs = s.inputs
  responses : u.responses = s.responses
  entropyDraws : u.entropyDraws = s.entropyDraws

theorem SeedOnly.refl (s : State) : SeedOnly s s := by constructor <;> rfl

theorem SeedOnly.trans {s t u : State} (h : SeedOnly s t) (k : SeedOnly t u) : SeedOnly s u := by
  constructor <;> simp only [k.ctr, k.oc, k.ocur, k.es, k.hs, k.sbc, k.layout, k.t, k.g, k.inputs, k.responses,
    k.entropyDraws, h.ctr, h.oc, h.ocur, h.es, h.hs, h.sbc, h.layout, h.t, h.g, h.inputs, h.responses, h.entropyDraws]

theorem absorbByte_seedOnly (P : Params) (s : State) (b : Byte) : SeedOnly s (absorbByte P s b) := by
  unfold absorbByte
  by_cases h : s.engine.bc.toNat = 63
  · simp only [if_pos h]
    constructor <;> rfl
  · simp only [if_neg h]
    constructor <;> rfl

theorem absorbBytes_seedOnly (P : Params) (bs : List Byte) (s : State) : SeedOnly s (bs.foldl (absorbByte P) s) := by
  induction bs generalizing s with
  | nil => exact SeedOnly.refl s
  | cons b bs ih => exact (absorbByte_seedOnly P s b).trans (ih _)

/-- ABSORB writes W, BC, H and SL, and nothing else of the engine (R35). -/
theorem absorb_seedOnly (P : Params) (bytes : List Byte) (s : State) : SeedOnly s (absorb P bytes s) := by
  rw [absorb_eq_bytes]
  have h := absorbBytes_seedOnly P bytes s
  constructor <;> simp [h.ctr, h.oc, h.ocur, h.es, h.hs, h.sbc, h.layout, h.t, h.g, h.inputs, h.responses, h.entropyDraws]

@[simp] theorem absorbByte_sl (P : Params) (s : State) (b : Byte) : (absorbByte P s b).engine.sl = s.engine.sl := by
  unfold absorbByte
  by_cases h : s.engine.bc.toNat = 63
  · simp only [if_pos h]
    rfl
  · simp only [if_neg h]
    rfl

@[simp] theorem absorbBytes_sl (P : Params) (bs : List Byte) (s : State) :
    (bs.foldl (absorbByte P) s).engine.sl = s.engine.sl := by
  induction bs generalizing s with
  | nil => rfl
  | cons b bs ih => rw [List.foldl_cons, ih, absorbByte_sl]

/-- The seed length grows by the number of bytes, modulo 2^64 (R143). -/
@[simp] theorem absorb_sl (P : Params) (bytes : List Byte) (s : State) :
    (absorb P bytes s).engine.sl = s.engine.sl + BitVec.ofNat 64 bytes.length := by
  rw [absorb_eq_bytes]
  simp

/-- The byte count and the number of compressions after bytes absorbed, in every state (R141, R142). -/
theorem absorbBytes_counts (P : Params) (bs : List Byte) (s : State) :
    (bs.foldl (absorbByte P) s).engine.bc.toNat = (s.engine.bc.toNat + bs.length) % 64 ∧
      (bs.foldl (absorbByte P) s).compressRequests.length =
        s.compressRequests.length + (s.engine.bc.toNat + bs.length) / 64 := by
  induction bs generalizing s with
  | nil =>
    have := s.engine.bc.isLt
    simp
    omega
  | cons b bs ih =>
    have hb := s.engine.bc.isLt
    have hi := ih (absorbByte P s b)
    rw [List.foldl_cons, hi.1, hi.2]
    by_cases h : s.engine.bc.toNat = 63
    · rw [absorbByte_full P s b h]
      simp [h]
      omega
    · rw [absorbByte_open P s b h]
      simp only [State.setEngine_engine, byteCount_succ h, List.length_cons, State.setEngine_compressRequests]
      omega

/-! ## Two ABSORBs in a row -/

theorem absorbByte_addSeedLength (P : Params) (s : State) (n : Nat) (b : Byte) :
    absorbByte P (s.setEngine (s.engine.addSeedLength n)) b =
      (absorbByte P s b).setEngine ((absorbByte P s b).engine.addSeedLength n) := by
  by_cases h : s.engine.bc.toNat = 63
  · rw [absorbByte_full P s b h, absorbByte_full P (s.setEngine (s.engine.addSeedLength n)) b h]
    rfl
  · rw [absorbByte_open P s b h, absorbByte_open P (s.setEngine (s.engine.addSeedLength n)) b h]
    rfl

theorem absorbBytes_addSeedLength (P : Params) (bs : List Byte) (s : State) (n : Nat) :
    bs.foldl (absorbByte P) (s.setEngine (s.engine.addSeedLength n)) =
      (bs.foldl (absorbByte P) s).setEngine ((bs.foldl (absorbByte P) s).engine.addSeedLength n) := by
  induction bs generalizing s with
  | nil => rfl
  | cons b bs ih => rw [List.foldl_cons, absorbByte_addSeedLength, ih, List.foldl_cons]

/-- Absorbing `a` and then `b` is absorbing `a ++ b` (R148), every register included. -/
theorem absorb_append (P : Params) (a b : List Byte) (s : State) :
    absorb P (a ++ b) s = absorb P b (absorb P a s) := by
  rw [absorb_eq_bytes P b, absorb_eq_bytes P a, absorb_eq_bytes P (a ++ b), List.foldl_append, absorbBytes_addSeedLength]
  simp only [State.setEngine_engine, State.setEngine_setEngine]
  congr 1
  simp [Engine.addSeedLength, BitVec.add_assoc, BitVec.ofNat_add]

@[simp] theorem absorb_nil (P : Params) (s : State) : absorb P [] s = s := by
  rw [absorb_eq_bytes]
  simp [Engine.addSeedLength]
  rfl

/-! ## What absorbing leaves in the seed registers -/

theorem byteAt_wordOfBytes_block (bs : List Byte) (k : Nat) (hk : k < 64) : byteAt (blockOfBytes bs) k = bs.getD k 0 := by
  have h : k / 4 < 16 := by omega
  have e : 4 * (k / 4) + k % 4 = k := by omega
  rw [byteAt, getD_eq_getElem?, blockOfBytes, Vector.getElem?_eq_getElem h, Option.getD_some, Vector.getElem_ofFn,
    lane_wordOfBytes _ _ _ _ (Nat.mod_lt _ (by omega))]
  have hm : k % 4 = 0 ∨ k % 4 = 1 ∨ k % 4 = 2 ∨ k % 4 = 3 := by omega
  dsimp only
  rcases hm with m | m | m | m <;> rw [m] <;> exact congrArg (fun i => bs.getD i 0) (by omega)

/-- A block is the block of its bytes. -/
theorem blockOfBytes_eq {bs : List Byte} {B : Block} (h : ∀ k < 64, bs.getD k 0 = byteAt B k) : blockOfBytes bs = B :=
  buffer_ext_bytes fun k hk => by rw [byteAt_wordOfBytes_block _ _ hk, h k hk]

/-- What the seed registers hold of the bytes absorbed: the valid bytes of the frame followed by the new ones, its whole
blocks folded into the digest, the rest in the frame (R140 to R142, R149). -/
structure AbsorbsTo (P : Params) (total : List Byte) (s t : State) : Prop where
  h : t.engine.h = foldBlocks P (total.length / 64) s.engine.h total
  requests : t.compressRequests = s.compressRequests ++ foldRequests P (total.length / 64) s.engine.h total
  bc : t.engine.bc.toNat = total.length % 64
  bytes : readBytes t.engine.w 0 t.engine.bc.toNat = total.drop (64 * (total.length / 64))
  lanes : ZeroLanes t.engine.w t.engine.bc.toNat

theorem absorbBytes_spec (P : Params) (bs : List Byte) (s : State) (hz : ZeroLanes s.engine.w s.engine.bc.toNat) :
    AbsorbsTo P (readBytes s.engine.w 0 s.engine.bc.toNat ++ bs) s (bs.foldl (absorbByte P) s) := by
  have hbc := s.engine.bc.isLt
  induction bs generalizing s with
  | nil =>
    have e : (readBytes s.engine.w 0 s.engine.bc.toNat ++ ([] : List Byte)).length / 64 = 0 := by
      simp only [List.append_nil, readBytes_length]
      omega
    constructor
    · rw [e]
      rfl
    · rw [e]
      simp [foldRequests]
    · simp only [List.append_nil, readBytes_length, List.foldl_nil]
      omega
    · rw [e]
      simp
    · exact hz
  | cons b bs ih =>
    have hp := byteAt_pushByte s.engine.w s.engine.bc.toNat b
    have hread : readBytes (pushByte s.engine.w s.engine.bc.toNat b) 0 (s.engine.bc.toNat + 1) =
        readBytes s.engine.w 0 s.engine.bc.toNat ++ [b] := by
      rw [readBytes_succ, Nat.zero_add, hp _ (by omega) hz, if_pos rfl]
      congr 1
      apply readBytes_congr
      intro i hi
      rw [hp _ (by omega) hz, if_neg (by omega), if_neg (by omega)]
    by_cases h63 : s.engine.bc.toNat = 63
    · have e1 : absorbByte P s b = (s.compress P s.engine.h (pushByte s.engine.w s.engine.bc.toNat b)).2.setEngine
          { s.engine with
            w := pushByte s.engine.w s.engine.bc.toNat b
            h := P.compress s.engine.h (pushByte s.engine.w s.engine.bc.toNat b)
            bc := 0 } := absorbByte_full P s b h63
      have ih' := ih (absorbByte P s b) (by rw [e1]; intro hc; exact absurd rfl hc) (by rw [e1]; simp)
      have etot : readBytes (absorbByte P s b).engine.w 0 (absorbByte P s b).engine.bc.toNat ++ bs = bs := by
        rw [e1]
        rfl
      rw [etot] at ih'
      have hlen : (readBytes s.engine.w 0 s.engine.bc.toNat ++ b :: bs).length = 64 + bs.length := by
        simp [h63]
        omega
      have hdrop : (readBytes s.engine.w 0 s.engine.bc.toNat ++ b :: bs).drop 64 = bs := by
        rw [show readBytes s.engine.w 0 s.engine.bc.toNat ++ b :: bs =
          (readBytes s.engine.w 0 s.engine.bc.toNat ++ [b]) ++ bs by simp]
        exact List.drop_left' (by simp [h63])
      have hblock : blockOfBytes (readBytes s.engine.w 0 s.engine.bc.toNat ++ b :: bs) =
          pushByte s.engine.w s.engine.bc.toNat b := by
        apply blockOfBytes_eq
        intro k hk
        have h3 : (readBytes (pushByte s.engine.w s.engine.bc.toNat b) 0 (s.engine.bc.toNat + 1)).getD k 0 =
            byteAt (pushByte s.engine.w s.engine.bc.toNat b) (0 + k) := readBytes_getD _ (by omega)
        rw [hread, Nat.zero_add] at h3
        rw [← h3, show readBytes s.engine.w 0 s.engine.bc.toNat ++ b :: bs =
          (readBytes s.engine.w 0 s.engine.bc.toNat ++ [b]) ++ bs by simp]
        simp only [List.getD_eq_getElem?_getD]
        rw [List.getElem?_append_left (by simp [h63]; omega)]
      have hdiv : (64 + bs.length) / 64 = bs.length / 64 + 1 := by omega
      rw [List.foldl_cons]
      constructor
      · rw [ih'.h, hlen, hdiv, foldBlocks, hdrop, hblock, e1]
        rfl
      · rw [ih'.requests, hlen, hdiv, foldRequests, hdrop, hblock, e1]
        simp
      · rw [ih'.bc, hlen]
        omega
      · rw [ih'.bytes, hlen, hdiv, show 64 * (bs.length / 64 + 1) = 64 + 64 * (bs.length / 64) by omega, ← List.drop_drop,
          hdrop]
      · exact ih'.lanes
    · have e1 : absorbByte P s b = s.setEngine
          { s.engine with w := pushByte s.engine.w s.engine.bc.toNat b, bc := s.engine.bc + 1 } := absorbByte_open P s b h63
      have e2 := byteCount_succ h63
      have etot : readBytes (absorbByte P s b).engine.w 0 (absorbByte P s b).engine.bc.toNat ++ bs =
          readBytes s.engine.w 0 s.engine.bc.toNat ++ b :: bs := by
        rw [e1]
        simp only [State.setEngine_engine, e2, hread]
        simp
      have ih' := ih (absorbByte P s b)
        (by rw [e1]; simp only [State.setEngine_engine, e2]; exact zeroLanes_pushByte _ _ _ (by omega) hz)
        (by rw [e1]; simp only [State.setEngine_engine, e2]; omega)
      rw [etot] at ih'
      rw [List.foldl_cons]
      have e3 : (absorbByte P s b).engine.h = s.engine.h := by rw [e1]; rfl
      have e4 : (absorbByte P s b).compressRequests = s.compressRequests := by rw [e1]; rfl
      exact ⟨by rw [ih'.h, e3], by rw [ih'.requests, e3, e4], ih'.bc, ih'.bytes, ih'.lanes⟩

/-- ABSORB on the seed registers. -/
theorem absorb_spec (P : Params) (bytes : List Byte) (s : State) (hz : ZeroLanes s.engine.w s.engine.bc.toNat) :
    AbsorbsTo P (readBytes s.engine.w 0 s.engine.bc.toNat ++ bytes) s (absorb P bytes s) := by
  have h := absorbBytes_spec P bytes s hz
  rw [absorb_eq_bytes]
  exact ⟨h.h, h.requests, h.bc, h.bytes, h.lanes⟩

/-- I-c of R31 in terms of lanes and of bytes. -/
theorem freeLanesZero_iff (e : Engine) : e.FreeLanesZero ↔ ZeroLanes e.w e.bc.toNat := by
  constructor
  · intro h hc k hk hw
    rw [byteAt, hw]
    exact h hc (k % 4) (Nat.mod_lt _ (by omega)) (by omega)
  · intro h hc j hj hle
    have := h hc (4 * (e.bc.toNat / 4) + j) (by omega) (by omega)
    rwa [byteAt, show (4 * (e.bc.toNat / 4) + j) / 4 = e.bc.toNat / 4 by omega,
      show (4 * (e.bc.toNat / 4) + j) % 4 = j by omega] at this

/-! ## The fold over whole blocks (R149) -/

/-- Bytes after the blocks folded do not matter. -/
theorem foldBlocks_append_left (P : Params) (k : Nat) (d : Digest) (a b : List Byte) (h : 64 * k ≤ a.length) :
    foldBlocks P k d (a ++ b) = foldBlocks P k d a := by
  induction k generalizing d a with
  | zero => rfl
  | succ k ih =>
    have hb : blockOfBytes (a ++ b) = blockOfBytes a := by
      apply blockOfBytes_eq
      intro j hj
      rw [byteAt_wordOfBytes_block _ _ hj]
      simp only [List.getD_eq_getElem?_getD]
      rw [List.getElem?_append_left (by omega)]
    rw [foldBlocks, foldBlocks, hb, List.drop_append_of_le_length (by omega), ih _ _ (by simp; omega)]

/-- Blocks folded in two parts. -/
theorem foldBlocks_add (P : Params) (k m : Nat) (d : Digest) (a : List Byte) :
    foldBlocks P (k + m) d a = foldBlocks P m (foldBlocks P k d a) (a.drop (64 * k)) := by
  induction k generalizing d a with
  | zero => simp [foldBlocks]
  | succ k ih =>
    rw [show k + 1 + m = (k + m) + 1 by omega, foldBlocks, ih, foldBlocks, List.drop_drop]
    congr 2
    omega

/-! ## SEED -/

/-- SEED with LEN = 0 (R147): only the status. -/
theorem seedCommand_nil (P : Params) (s : State) : seedCommand P [] s = s.respond [] .ok := rfl

/-- SEED with bytes (R145). -/
theorem seedCommand_of_ne_nil (P : Params) {payload : List Byte} (h : payload ≠ []) (s : State) :
    seedCommand P payload s = (seedBytes P payload s).respond [] .ok := by
  have h0 : payload.length ≠ 0 := fun e => h (List.length_eq_zero_iff.mp e)
  rw [seedCommand, if_neg h0]

@[simp] theorem seedBytes_ocur (P : Params) (payload : List Byte) (s : State) :
    (seedBytes P payload s).engine.ocur = 20 := rfl

@[simp] theorem seedBytes_es (P : Params) (payload : List Byte) (s : State) :
    (seedBytes P payload s).engine.es = .seeded := rfl

/-- Everything else of a SEED with bytes is ABSORB's. -/
theorem seedBytes_eq (P : Params) (payload : List Byte) (s : State) :
    seedBytes P payload s =
      (absorb P payload s).setEngine { (absorb P payload s).engine with ocur := 20, es := .seeded } := rfl

end Sys2Proof.Machine
end

