-- ==== Sys2Proof/Laws/Finalize.lean ====
section
/-! SUPPORT. What finalization does: the bytes of the template and of its trailer, and what precedes output
(spec/42_finalization.md rules R160 to R170). -/

namespace Sys2Proof.Machine


/-- The byte count is below 64. -/
theorem byteCount_lt (c : BitVec 6) : c.toNat < 64 := c.isLt

theorem twoBlock_iff (c : BitVec 6) : twoBlock c = true ↔ 48 ≤ c.toNat := decide_eq_true_iff

/-- A byte of the template before the trailer (R164): the valid seed bytes, and zero everywhere else. -/
theorem byteAt_template (w : Block) (c : BitVec 6) (k : Nat) :
    byteAt (template w c) k = if k < c.toNat then byteAt w k else 0#8 := by
  have hc := c.isLt
  have hz : byteAt (Vector.replicate 32 (0 : Word)) k = 0#8 := byteAt_replicate_zero 32 k
  rw [template, byteAt_writeBytes _ _ _ _ (by simp; omega), readBytes_length, hz]
  by_cases h : k < c.toNat
  · rw [if_pos (by omega), if_pos h, Nat.sub_zero, readBytes_getD _ h, Nat.zero_add]
  · rw [if_neg (by omega), if_neg h]

/-- Templates of buffers with the same valid bytes are the same. -/
theorem template_congr {w v : Block} {c : BitVec 6} (h : readBytes w 0 c.toNat = readBytes v 0 c.toNat) :
    template w c = template v c := by
  rw [template, template, h]

theorem lastFrameStart_le (l : PaddingLayout) : lastFrameStart l ≤ 16 := by
  cases l <;> decide

/-- A byte of the template with its trailer (R166): eight bytes of the bit length at the end of the last frame. -/
theorem byteAt_placeTrailer (t : Work) (l : PaddingLayout) (v : DWord) (k : Nat) :
    byteAt (placeTrailer t l v) k =
      if 4 * lastFrameStart l + 56 ≤ k ∧ k < 4 * lastFrameStart l + 64 then (be64 v).getD (k - (4 * lastFrameStart l + 56)) 0
      else byteAt t k := by
  have hl := lastFrameStart_le l
  have hm : k % 4 < 4 := Nat.mod_lt _ (by omega)
  rw [placeTrailer, byteAt_setIfInBounds, byteAt_setIfInBounds]
  by_cases h15 : k / 4 = lastFrameStart l + 15
  · rw [if_pos ⟨h15, by omega⟩, if_pos (by omega), lane_loWord v hm]
    congr 1
    omega
  · rw [if_neg (fun h => h15 h.1)]
    by_cases h14 : k / 4 = lastFrameStart l + 14
    · rw [if_pos ⟨h14, by omega⟩, if_pos (by omega), lane_hiWord v hm]
      congr 1
      omega
    · rw [if_neg (fun h => h14 h.1), if_neg (by omega)]

/-- FINALIZE reads W, BC, H and SL only, W only through its valid bytes (R164, R170). -/
theorem finalize_finalize (P : Params) (e : Engine) : finalize P (finalize P e) = finalize P e := rfl

/-- What comes before output leaves the engine Expanding (R160). -/
theorem beginOutput_es (P : Params) (s : State) : (beginOutput P s).engine.es = .expanding := by
  unfold beginOutput
  cases h : s.engine.es
  · rfl
  · rfl
  · exact h

theorem beginOutput_uninitialized (P : Params) (s : State) (h : s.engine.es = .uninitialized) :
    beginOutput P s = (selfSeed P s).setEngine (finalize P (selfSeed P s).engine) := by
  rw [beginOutput, h]

theorem beginOutput_seeded (P : Params) (s : State) (h : s.engine.es = .seeded) :
    beginOutput P s = s.setEngine (finalize P s.engine) := by
  rw [beginOutput, h]

theorem beginOutput_expanding (P : Params) (s : State) (h : s.engine.es = .expanding) : beginOutput P s = s := by
  rw [beginOutput, h]

/-- Once Expanding, nothing more is due. -/
theorem beginOutput_idem (P : Params) (s : State) : beginOutput P (beginOutput P s) = beginOutput P s :=
  beginOutput_expanding P _ (beginOutput_es P s)

/-! ## What comes before output, on the ports -/

/-- What comes before output takes no input of the host, answers nothing and asks the entropy source only when the
engine is Uninitialized (R160, R161). -/
structure BeforeOutput (s u : State) : Prop where
  inputs : u.inputs = s.inputs
  responses : u.responses = s.responses
  entropyDraws : u.entropyDraws = s.entropyDraws + if s.engine.es = .uninitialized then 1 else 0
  ctr : u.engine.ctr = s.engine.ctr

theorem beginOutput_ports (P : Params) (s : State) : BeforeOutput s (beginOutput P s) := by
  cases h : s.engine.es
  · rw [beginOutput_uninitialized P s h]
    have a := absorb_seedOnly P s.entropy.1.toList s.entropy.2
    constructor
    · exact a.inputs
    · exact a.responses
    · rw [h]
      exact a.entropyDraws
    · exact a.ctr
  · rw [beginOutput_seeded P s h]
    constructor <;> first | rfl | (rw [h]; rfl)
  · rw [beginOutput_expanding P s h]
    constructor <;> first | rfl | (rw [h]; rfl)

end Sys2Proof.Machine
end

