-- ==== Sys2Proof/Laws/Listing.lean ====
section
/-! SUPPORT. The characters of a listing line (spec/30_encoding.md rule R101). -/

namespace Sys2Proof.Machine

/-- A hex digit written is a hex digit read, and no blank and no comment sign. -/
theorem hexDigit_digitChar : ∀ n < 16, hexDigit (digitChar n) = some n ∧ digitChar n ≠ ';' ∧ digitChar n ≠ ' ' := by decide

/-- Bytes written as hex digits are the bytes read. -/
theorem hexBytes_hexOfBytes (p : List Byte) : hexBytes (hexOfBytes p) = some p := by
  induction p with
  | nil => rfl
  | cons b bs ih =>
    have hb := b.isLt
    rw [hexOfBytes, hexBytes, (hexDigit_digitChar _ (by omega)).1, (hexDigit_digitChar (b.toNat % 16) (by omega)).1, ih]
    simp only [Option.some.injEq, List.cons.injEq, and_true]
    apply BitVec.eq_of_toNat_eq
    simp
    omega

theorem mem_hexOfBytes {p : List Byte} {c : Char} (h : c ∈ hexOfBytes p) : c ≠ ';' ∧ c ≠ ' ' := by
  induction p with
  | nil => simp [hexOfBytes] at h
  | cons b bs ih =>
    have hb := b.isLt
    simp only [hexOfBytes, List.mem_cons] at h
    rcases h with rfl | rfl | hc
    · exact (hexDigit_digitChar _ (by omega)).2
    · exact (hexDigit_digitChar _ (by omega)).2
    · exact ih hc

/-- Decimal digits written are the number read on from a value. -/
theorem decimalFrom_digits (v : Nat) (ds : List (Fin 10)) :
    decimalFrom v (ds.map fun d => digitChar d.val) = some (ds.foldl (fun v d => 10 * v + d.val) v) := by
  have digit : ∀ d : Fin 10, (48 ≤ (digitChar d.val).toNat ∧ (digitChar d.val).toNat ≤ 57) ∧
      (digitChar d.val).toNat - 48 = d.val := by decide
  induction ds generalizing v with
  | nil => rfl
  | cons d ds ih => rw [List.map_cons, decimalFrom, if_pos (digit d).1, (digit d).2, ih, List.foldl_cons]

theorem decimal_digits {ds : List (Fin 10)} (h : ds ≠ []) :
    decimal (ds.map fun d => digitChar d.val) = some (decimalValue ds) := by
  rw [decimal, if_neg (by simpa using h), decimalFrom_digits, decimalValue]

/-- Characters without blank and comment sign are one field. -/
theorem fieldsFrom_word (cs f : List Char) (h : ∀ c ∈ cs, c ≠ ';' ∧ c ≠ ' ') :
    fieldsFrom f cs = if f = [] ∧ cs = [] then [] else [f.reverse ++ cs] := by
  induction cs generalizing f with
  | nil => simp [fieldsFrom]
  | cons c cs ih =>
    have hc := h c (by simp)
    rw [fieldsFrom, if_neg hc.1, if_neg hc.2, ih _ (fun x hx => h x (by simp [hx]))]
    simp

end Sys2Proof.Machine
end

