-- ==== Sys2Proof/Laws/NextBytes.lean ====
section
/-! SUPPORT. What a round and what output do: ROUND said once; output is byte after byte, so two requests in a row are
one; the counter, the cursor, the bytes and the frame of output (spec/43_expansion.md rules R190 to R204). -/

namespace Sys2Proof.Machine

/-! ## ROUND -/

/-- The digest of a round and what is asked for it (R195). -/
theorem roundDigest_eq (P : Params) (g : Work) (s : State) :
    roundDigest P g s =
      (chainDigest P s.engine.layout s.engine.hs g,
        { s with compressRequests := s.compressRequests ++ roundRequests P s.engine.layout s.engine.hs g }) := by
  unfold roundDigest chainDigest roundRequests State.compress
  cases s.engine.layout <;> simp

/-- The engine after a round (R194 to R196): the carry is the round's bytes, none delivered; G is the frames sent. -/
def Engine.afterRound (P : Params) (e : Engine) : Engine :=
  { e with oc := digestBytes (chainDigest P e.layout e.hs (roundFrames e)), ocur := 0, g := roundFrames e }

@[simp] theorem Engine.afterRound_w (P : Params) (e : Engine) :
    (e.afterRound P).w = e.w := by simp only [Engine.afterRound]

@[simp] theorem Engine.afterRound_bc (P : Params) (e : Engine) :
    (e.afterRound P).bc = e.bc := by simp only [Engine.afterRound]

@[simp] theorem Engine.afterRound_h (P : Params) (e : Engine) :
    (e.afterRound P).h = e.h := by simp only [Engine.afterRound]

@[simp] theorem Engine.afterRound_sl (P : Params) (e : Engine) :
    (e.afterRound P).sl = e.sl := by simp only [Engine.afterRound]

@[simp] theorem Engine.afterRound_ctr (P : Params) (e : Engine) :
    (e.afterRound P).ctr = e.ctr := by simp only [Engine.afterRound]

@[simp] theorem Engine.afterRound_oc (P : Params) (e : Engine) :
    (e.afterRound P).oc = digestBytes (chainDigest P e.layout e.hs (roundFrames e)) := by simp only [Engine.afterRound]

@[simp] theorem Engine.afterRound_ocur (P : Params) (e : Engine) :
    (e.afterRound P).ocur = 0 := by simp only [Engine.afterRound]

@[simp] theorem Engine.afterRound_es (P : Params) (e : Engine) :
    (e.afterRound P).es = e.es := by simp only [Engine.afterRound]

@[simp] theorem Engine.afterRound_hs (P : Params) (e : Engine) :
    (e.afterRound P).hs = e.hs := by simp only [Engine.afterRound]

@[simp] theorem Engine.afterRound_sbc (P : Params) (e : Engine) :
    (e.afterRound P).sbc = e.sbc := by simp only [Engine.afterRound]

@[simp] theorem Engine.afterRound_layout (P : Params) (e : Engine) :
    (e.afterRound P).layout = e.layout := by simp only [Engine.afterRound]

@[simp] theorem Engine.afterRound_t (P : Params) (e : Engine) :
    (e.afterRound P).t = e.t := by simp only [Engine.afterRound]

@[simp] theorem Engine.afterRound_g (P : Params) (e : Engine) :
    (e.afterRound P).g = roundFrames e := by simp only [Engine.afterRound]

/-- ROUND, said once: the engine after it, and what was asked of the compression primitive. -/
theorem round_eq (P : Params) (s : State) :
    round P s =
      { s with
        engine := s.engine.afterRound P
        compressRequests :=
          s.compressRequests ++ roundRequests P s.engine.layout s.engine.hs (roundFrames s.engine) } := by
  rw [round, roundDigest_eq]
  rfl

@[simp] theorem round_engine (P : Params) (s : State) : (round P s).engine = s.engine.afterRound P := by rw [round_eq]

@[simp] theorem round_inputs (P : Params) (s : State) : (round P s).inputs = s.inputs := by rw [round_eq]

@[simp] theorem round_responses (P : Params) (s : State) : (round P s).responses = s.responses := by rw [round_eq]

@[simp] theorem round_entropyDraws (P : Params) (s : State) : (round P s).entropyDraws = s.entropyDraws := by
  rw [round_eq]

@[simp] theorem round_compressRequests (P : Params) (s : State) :
    (round P s).compressRequests =
      s.compressRequests ++ roundRequests P s.engine.layout s.engine.hs (roundFrames s.engine) := by rw [round_eq]

/-! ## The working frames -/

/-- The bytes of the working frames (R194), for a template whose lanes from the byte count on are zero in its word: the
counter's eight bytes and the flag byte at the byte count, zeros in the rest of the last word, the template elsewhere. -/
theorem byteAt_roundFrames (e : Engine) (hz : ZeroLanes e.t e.sbc.toNat) (k : Nat) :
    byteAt (roundFrames e) k =
      if e.sbc.toNat ≤ k ∧ k < e.sbc.toNat + 9 then (be64 e.ctr ++ [0x80]).getD (k - e.sbc.toNat) 0
      else if e.sbc.toNat + 9 ≤ k ∧ k / 4 = (e.sbc.toNat + 9) / 4 ∧ (e.sbc.toNat + 9) % 4 ≠ 0 then 0#8
      else byteAt e.t k := by
  have hb := e.sbc.isLt
  unfold roundFrames
  simp only [append_eq_push, List.drop_zero]
  rw [show List.take (8 - 0) (be64 e.ctr) = be64 e.ctr from rfl, show List.take (1 - 0) [(0x80 : Byte)] = [0x80] from rfl,
    ← pushBytes_append, byteAt_pushBytes _ _ _ _ (by simp; omega) hz]
  rfl

/-! ## Output byte by byte -/

/-- One byte of output: the next byte of the carry, or the first of a new round and the counter step after it. -/
def byteStep (P : Params) (s : State) : Byte × State :=
  if h : s.engine.ocur.val < 20 then
    (s.engine.oc[s.engine.ocur.val], s.setEngine (s.engine.setOcur (s.engine.ocur.val + 1)))
  else ((round P s).engine.oc[0], (round P s).setEngine ((round P s).engine.setOcur 1).stepCounter)

/-- `n` bytes of output. -/
def bytesOut (P : Params) : Nat → State → List Byte × State
  | 0, s => ([], s)
  | n + 1, s => ((byteStep P s).1 :: (bytesOut P n (byteStep P s).2).1, (bytesOut P n (byteStep P s).2).2)

theorem bytesOut_add (P : Params) (m n : Nat) (s : State) :
    bytesOut P (m + n) s =
      ((bytesOut P m s).1 ++ (bytesOut P n (bytesOut P m s).2).1, (bytesOut P n (bytesOut P m s).2).2) := by
  induction m generalizing s with
  | zero => simp [bytesOut]
  | succ m ih => rw [Nat.succ_add, bytesOut, ih, bytesOut]; rfl

theorem bytesOut_length (P : Params) (n : Nat) (s : State) : (bytesOut P n s).1.length = n := by
  induction n generalizing s with
  | zero => rfl
  | succ n ih => simp [bytesOut, ih]

theorem byteStep_carry (P : Params) (s : State) (h : s.engine.ocur.val < 20) :
    byteStep P s =
      (s.engine.oc[s.engine.ocur.val], s.setEngine (s.engine.setOcur (s.engine.ocur.val + 1))) := by
  rw [byteStep, dif_pos h]

theorem byteStep_round (P : Params) (s : State) (h : s.engine.ocur.val = 20) :
    byteStep P s =
      ((round P s).engine.oc[0], (round P s).setEngine ((round P s).engine.setOcur 1).stepCounter) := by
  rw [byteStep, dif_neg (by omega)]

/-- Output that the carry serves whole (R193). -/
theorem bytesOut_carry (P : Params) (m : Nat) (s : State) (h : m ≤ 20 - s.engine.ocur.val) :
    bytesOut P m s =
      ((s.engine.oc.toList.drop s.engine.ocur.val).take m,
        s.setEngine (s.engine.setOcur (s.engine.ocur.val + m))) := by
  induction m generalizing s with
  | zero => simp [bytesOut]
  | succ m ih =>
    have hlt : s.engine.ocur.val < 20 := by omega
    have hv : (s.engine.setOcur (s.engine.ocur.val + 1)).ocur.val = s.engine.ocur.val + 1 :=
      Engine.setOcur_val _ (by omega)
    rw [bytesOut, byteStep_carry P s hlt, ih _ (by rw [State.setEngine_engine, hv]; omega)]
    simp only [State.setEngine_engine, hv, Engine.setOcur_oc, State.setEngine_setEngine]
    refine Prod.ext ?_ ?_
    · have hl : s.engine.ocur.val < s.engine.oc.toList.length := by simp; omega
      rw [List.drop_eq_getElem_cons hl, List.take_succ_cons]
      simp
    · rw [show s.engine.ocur.val + 1 + m = s.engine.ocur.val + (m + 1) by omega]
      rfl

/-- One pass of the round loop is bytes of output, from an empty carry (R190, R197). -/
theorem roundPass_eq (P : Params) (want : Nat) (s : State) (h : s.engine.ocur.val = 20) (hw : 0 < want) :
    roundPass P want s = bytesOut P (min 20 want) s := by
  obtain ⟨m, hm⟩ : ∃ m, min 20 want = m + 1 := ⟨min 20 want - 1, by omega⟩
  have h1 : (((round P s).engine.setOcur 1).stepCounter).ocur.val = 1 := rfl
  rw [roundPass, hm, bytesOut, byteStep_round P s h,
    bytesOut_carry P m _ (by rw [State.setEngine_engine, h1]; omega)]
  simp only [State.setEngine_engine, h1, Engine.stepCounter_oc, Engine.setOcur_oc, State.setEngine_setEngine,
    memRead_carry, List.drop_zero]
  refine Prod.ext ?_ ?_
  · have hl : 0 < (round P s).engine.oc.toList.length := by simp
    have hd := List.drop_eq_getElem_cons hl
    rw [List.drop_zero] at hd
    rw [hd, List.take_succ_cons, ← hd]
    simp
  · rw [show 1 + m = m + 1 by omega]
    rfl

/-- A pass that fills the carry's 20 bytes leaves it empty. -/
theorem bytesOut_ocur_of_full (P : Params) (s : State) (h : s.engine.ocur.val = 20) :
    (bytesOut P 20 s).2.engine.ocur.val = 20 := by
  have e := roundPass_eq P 20 s h (by omega)
  rw [show min 20 20 = 20 from rfl] at e
  rw [← e]
  rfl

/-- The round loop is bytes of output, from an empty carry (R190). -/
theorem roundLoop_eq (P : Params) (len fuel : Nat) (out : List Byte) (s : State) (hf : len - out.length ≤ fuel)
    (h : out.length < len → s.engine.ocur.val = 20) :
    roundLoop P len fuel out s =
      (out ++ (bytesOut P (len - out.length) s).1, (bytesOut P (len - out.length) s).2) := by
  induction fuel generalizing out s with
  | zero =>
    rw [roundLoop, show len - out.length = 0 by omega]
    simp [bytesOut]
  | succ fuel ih =>
    rw [roundLoop]
    by_cases hlt : out.length < len
    · have h20 := h hlt
      have hp := roundPass_eq P (len - out.length) s h20 (by omega)
      simp only [if_pos hlt]
      rw [hp, writeOut_at_end]
      have hlen : (out ++ (bytesOut P (min 20 (len - out.length)) s).1).length =
          out.length + min 20 (len - out.length) := by
        rw [List.length_append, bytesOut_length]
      rw [ih _ _ (by rw [hlen]; omega) ?_]
      · have hs : len - out.length =
            min 20 (len - out.length) + (len - (out.length + min 20 (len - out.length))) := by omega
        have hb := bytesOut_add P (min 20 (len - out.length)) (len - (out.length + min 20 (len - out.length))) s
        rw [← hs] at hb
        rw [hlen, hb, List.append_assoc]
      · intro hlt2
        rw [hlen] at hlt2
        rw [show min 20 (len - out.length) = 20 by omega]
        exact bytesOut_ocur_of_full P s h20
    · simp only [if_neg hlt]
      rw [show len - out.length = 0 by omega]
      simp [bytesOut]

/-- The output of a NEXTBYTES with bytes to deliver, byte by byte, after what is due before it (R190). -/
theorem produce_eq (P : Params) (len : Nat) (s : State) : produce P len s = bytesOut P len (beginOutput P s) := by
  have hc := (beginOutput P s).engine.ocur.isLt
  have hd := bytesOut_carry P (min (beginOutput P s).engine.carryLeft len) (beginOutput P s)
    (by unfold Engine.carryLeft; omega)
  have hm : min (beginOutput P s).engine.carryLeft len ≤ len := by omega
  have hlen : (drain len (beginOutput P s).engine).1.length = min (beginOutput P s).engine.carryLeft len := by
    rw [drain, memRead_carry]
    simp [Engine.carryLeft]
  rw [produce, writeOut_nil, roundLoop_eq P len len _ _ (by omega), hlen]
  · have hb := bytesOut_add P (min (beginOutput P s).engine.carryLeft len)
      (len - min (beginOutput P s).engine.carryLeft len) (beginOutput P s)
    rw [show min (beginOutput P s).engine.carryLeft len + (len - min (beginOutput P s).engine.carryLeft len) = len by omega,
      hd] at hb
    rw [hb]
    rfl
  · intro hlt
    rw [hlen] at hlt
    rw [State.setEngine_engine, drain]
    have := Engine.setOcur_val (beginOutput P s).engine
      (m := (beginOutput P s).engine.ocur.val + min (beginOutput P s).engine.carryLeft len)
      (by unfold Engine.carryLeft; omega)
    rw [this]
    unfold Engine.carryLeft at hlt ⊢
    omega

/-! ## What output does, and what it leaves alone -/

/-- An operation that writes the expansion registers CTR, OC, OCUR, G only, and of the ports the compression port. -/
structure OutputOnly (s u : State) : Prop where
  w : u.engine.w = s.engine.w
  bc : u.engine.bc = s.engine.bc
  h : u.engine.h = s.engine.h
  sl : u.engine.sl = s.engine.sl
  es : u.engine.es = s.engine.es
  hs : u.engine.hs = s.engine.hs
  sbc : u.engine.sbc = s.engine.sbc
  layout : u.engine.layout = s.engine.layout
  t : u.engine.t = s.engine.t
  inputs : u.inputs = s.inputs
  responses : u.responses = s.responses
  entropyDraws : u.entropyDraws = s.entropyDraws

theorem OutputOnly.refl (s : State) : OutputOnly s s := by constructor <;> rfl

theorem OutputOnly.trans {s t u : State} (h : OutputOnly s t) (k : OutputOnly t u) : OutputOnly s u := by
  constructor <;> simp only [k.w, k.bc, k.h, k.sl, k.es, k.hs, k.sbc, k.layout, k.t, k.inputs, k.responses,
    k.entropyDraws, h.w, h.bc, h.h, h.sl, h.es, h.hs, h.sbc, h.layout, h.t, h.inputs, h.responses, h.entropyDraws]

theorem byteStep_outputOnly (P : Params) (s : State) : OutputOnly s (byteStep P s).2 := by
  by_cases h : s.engine.ocur.val < 20
  · rw [byteStep_carry P s h]
    constructor <;> rfl
  · rw [byteStep_round P s (by have := s.engine.ocur.isLt; omega), round_eq]
    constructor <;> rfl

/-- Output of any length writes CTR, OC, OCUR and G, and nothing else of the engine (R35, R199). -/
theorem bytesOut_outputOnly (P : Params) (n : Nat) (s : State) : OutputOnly s (bytesOut P n s).2 := by
  induction n generalizing s with
  | zero => exact OutputOnly.refl s
  | succ n ih => exact (byteStep_outputOnly P s).trans (ih _)

/-- The counter, the cursor and the number of compressions after `n` bytes (R202, R204). -/
structure CountsAfter (n : Nat) (s u : State) : Prop where
  ctr : u.engine.ctr = s.engine.ctr + BitVec.ofNat 64 (roundsFor n (20 - s.engine.ocur.val))
  ocur : u.engine.ocur.val = cursorAfter n (20 - s.engine.ocur.val)
  requests : u.compressRequests.length =
    s.compressRequests.length + roundsFor n (20 - s.engine.ocur.val) * compressionsPerRound s.engine.layout

theorem bytesOut_counts (P : Params) (n : Nat) (s : State) : CountsAfter n s (bytesOut P n s).2 := by
  induction n generalizing s with
  | zero =>
    have := s.engine.ocur.isLt
    constructor
    · rw [show roundsFor 0 (20 - s.engine.ocur.val) = 0 by unfold roundsFor; omega]
      simp [bytesOut]
    · simp [bytesOut, cursorAfter]; omega
    · rw [show roundsFor 0 (20 - s.engine.ocur.val) = 0 by unfold roundsFor; omega]
      simp [bytesOut]
  | succ n ih =>
    have hi := ih (byteStep P s).2
    have hc := s.engine.ocur.isLt
    rw [bytesOut]
    by_cases h : s.engine.ocur.val < 20
    · have hv : (s.engine.setOcur (s.engine.ocur.val + 1)).ocur.val = s.engine.ocur.val + 1 :=
        Engine.setOcur_val _ (by omega)
      rw [byteStep_carry P s h] at hi ⊢
      have hr : roundsFor n (20 - (s.engine.ocur.val + 1)) = roundsFor (n + 1) (20 - s.engine.ocur.val) := by
        unfold roundsFor; omega
      constructor
      · rw [hi.ctr, State.setEngine_engine, hv, hr]
        rfl
      · rw [hi.ocur, State.setEngine_engine, hv]
        unfold cursorAfter
        split_ifs <;> omega
      · rw [hi.requests, State.setEngine_engine, hv, hr]
        rfl
    · have h20 : s.engine.ocur.val = 20 := by omega
      rw [byteStep_round P s h20] at hi ⊢
      have hv : (((round P s).engine.setOcur 1).stepCounter).ocur.val = 1 := rfl
      have hr : roundsFor (n + 1) (20 - s.engine.ocur.val) = roundsFor n 19 + 1 := by
        unfold roundsFor; omega
      constructor
      · rw [hi.ctr, State.setEngine_engine, hv, hr, round_eq]
        simp only [Engine.stepCounter_ctr, Engine.setOcur_ctr, Engine.afterRound]
        rw [BitVec.add_assoc, Nat.add_comm, BitVec.ofNat_add]
        rfl
      · rw [hi.ocur, State.setEngine_engine, hv, h20]
        unfold cursorAfter
        split_ifs <;> omega
      · rw [hi.requests, State.setEngine_engine, hv, show 20 - 1 = 19 from rfl, hr, round_eq]
        simp only [State.setEngine_compressRequests, Engine.stepCounter_layout, Engine.setOcur_layout, Engine.afterRound,
          List.length_append, Nat.add_mul, Nat.one_mul]
        have : (roundRequests P s.engine.layout s.engine.hs (roundFrames s.engine)).length =
            compressionsPerRound s.engine.layout := by
          unfold roundRequests compressionsPerRound
          cases s.engine.layout <;> rfl
        omega

/-- A round reads the snapshot registers and the counter only. -/
theorem roundBytes_congr (P : Params) {e f : Engine} (h1 : e.hs = f.hs) (h2 : e.sbc = f.sbc) (h3 : e.layout = f.layout)
    (h4 : e.t = f.t) (c : DWord) : roundBytes P e c = roundBytes P f c := by
  simp only [roundBytes, roundFrames, h1, h2, h3, h4]

theorem roundStream_congr (P : Params) {e f : Engine} (h1 : e.hs = f.hs) (h2 : e.sbc = f.sbc) (h3 : e.layout = f.layout)
    (h4 : e.t = f.t) (k : Nat) (c : DWord) : roundStream P e k c = roundStream P f k c := by
  induction k generalizing c with
  | zero => rfl
  | succ k ih => rw [roundStream, roundStream, ih, roundBytes_congr P h1 h2 h3 h4]

@[simp] theorem roundBytes_length (P : Params) (e : Engine) (c : DWord) : (roundBytes P e c).length = 20 := by
  simp [roundBytes]

/-- The bytes of output: what is left of the carry, and then the rounds from the current counter on (R201). -/
theorem bytesOut_bytes (P : Params) (n k : Nat) (s : State) (hk : n ≤ 20 - s.engine.ocur.val + 20 * k) :
    (bytesOut P n s).1 = (s.engine.undelivered ++ roundStream P s.engine k s.engine.ctr).take n := by
  induction n generalizing s k with
  | zero => simp [bytesOut]
  | succ n ih =>
    have hc := s.engine.ocur.isLt
    rw [bytesOut]
    by_cases h : s.engine.ocur.val < 20
    · have hv : (s.engine.setOcur (s.engine.ocur.val + 1)).ocur.val = s.engine.ocur.val + 1 :=
        Engine.setOcur_val _ (by omega)
      rw [byteStep_carry P s h]
      dsimp only
      rw [ih k _ (by rw [State.setEngine_engine, hv]; omega)]
      have hl : s.engine.ocur.val < s.engine.oc.toList.length := by simp; omega
      rw [State.setEngine_engine, Engine.undelivered, Engine.undelivered, hv, List.drop_eq_getElem_cons hl,
        roundStream_congr P (e := s.engine.setOcur (s.engine.ocur.val + 1)) (f := s.engine) rfl rfl rfl rfl]
      simp
    · have h20 : s.engine.ocur.val = 20 := by omega
      obtain ⟨k', rfl⟩ : ∃ k', k = k' + 1 := ⟨k - 1, by omega⟩
      rw [byteStep_round P s h20]
      dsimp only
      have hv : (((round P s).engine.setOcur 1).stepCounter).ocur.val = 1 := rfl
      rw [ih k' _ (by rw [State.setEngine_engine, hv]; omega)]
      have hoc : (round P s).engine.oc.toList = roundBytes P s.engine s.engine.ctr := by
        rw [round_eq]
        rfl
      have hun : s.engine.undelivered = [] := by
        rw [Engine.undelivered, h20]
        exact List.drop_eq_nil_of_le (by simp)
      have hctr : (((round P s).engine.setOcur 1).stepCounter).ctr = s.engine.ctr + 1 := by
        rw [round_eq]
        rfl
      have hl : 0 < (round P s).engine.oc.toList.length := by simp
      have hd := List.drop_eq_getElem_cons hl
      rw [List.drop_zero] at hd
      rw [hun, List.nil_append, roundStream, ← hoc, State.setEngine_engine, hctr,
        roundStream_congr P (f := s.engine) (by rw [round_eq]; rfl) (by rw [round_eq]; rfl) (by rw [round_eq]; rfl)
          (by rw [round_eq]; rfl),
        Engine.undelivered, hv, Engine.stepCounter_oc, Engine.setOcur_oc]
      rw [hd]
      simp

/-- The carry and the working frames after output: as they were if no round ran, else the last round's (R194, R196). -/
structure LastRound (P : Params) (n : Nat) (s u : State) : Prop where
  none : roundsFor n (20 - s.engine.ocur.val) = 0 → u.engine.oc = s.engine.oc ∧ u.engine.g = s.engine.g
  some : ∀ k, roundsFor n (20 - s.engine.ocur.val) = k + 1 →
    u.engine.oc.toList = roundBytes P s.engine (s.engine.ctr + BitVec.ofNat 64 k) ∧
      u.engine.g = roundFrames { s.engine with ctr := s.engine.ctr + BitVec.ofNat 64 k }

theorem bytesOut_lastRound (P : Params) (n : Nat) (s : State) : LastRound P n s (bytesOut P n s).2 := by
  induction n generalizing s with
  | zero =>
    have := s.engine.ocur.isLt
    constructor
    · exact fun _ => ⟨rfl, rfl⟩
    · intro k hk
      unfold roundsFor at hk
      omega
  | succ n ih =>
    have hi := ih (byteStep P s).2
    have hc := s.engine.ocur.isLt
    rw [bytesOut]
    by_cases h : s.engine.ocur.val < 20
    · have hv : (s.engine.setOcur (s.engine.ocur.val + 1)).ocur.val = s.engine.ocur.val + 1 :=
        Engine.setOcur_val _ (by omega)
      rw [byteStep_carry P s h] at hi ⊢
      have hr : roundsFor n (20 - (s.engine.ocur.val + 1)) = roundsFor (n + 1) (20 - s.engine.ocur.val) := by
        unfold roundsFor; omega
      constructor
      · intro h0
        exact hi.none (by rw [State.setEngine_engine, hv, hr]; exact h0)
      · intro k hk
        have := hi.some k (by rw [State.setEngine_engine, hv, hr]; exact hk)
        exact this
    · have h20 : s.engine.ocur.val = 20 := by omega
      rw [byteStep_round P s h20] at hi ⊢
      have hv : (((round P s).engine.setOcur 1).stepCounter).ocur.val = 1 := rfl
      have hr : roundsFor (n + 1) (20 - s.engine.ocur.val) = roundsFor n 19 + 1 := by
        unfold roundsFor; omega
      constructor
      · intro h0
        omega
      · intro k hk
        have hk' : roundsFor n 19 = k := by omega
        cases k with
        | zero =>
          have := hi.none (by rw [State.setEngine_engine, hv]; exact hk')
          dsimp only
          rw [this.1, this.2, round_eq]
          simp only [State.setEngine_engine, Engine.stepCounter_oc, Engine.setOcur_oc, Engine.stepCounter_g, Engine.setOcur_g,
            Engine.afterRound, BitVec.add_zero, roundBytes]
          exact ⟨trivial, trivial⟩
        | succ k =>
          have hs := hi.some k (by rw [State.setEngine_engine, hv]; exact hk')
          have hctr : (((round P s).engine.setOcur 1).stepCounter).ctr = s.engine.ctr + 1 := by
            rw [round_eq]
            rfl
          have hadd : s.engine.ctr + 1 + BitVec.ofNat 64 k = s.engine.ctr + BitVec.ofNat 64 (k + 1) := by
            rw [BitVec.add_assoc, Nat.add_comm k 1, BitVec.ofNat_add]
            rfl
          rw [State.setEngine_engine, hctr, hadd] at hs
          refine ⟨hs.1.trans ?_, hs.2.trans ?_⟩
          · exact roundBytes_congr P (by rw [round_eq]; rfl) (by rw [round_eq]; rfl) (by rw [round_eq]; rfl)
              (by rw [round_eq]; rfl) _
          · rw [round_eq]
            rfl

end Sys2Proof.Machine
end

