-- ==== Sys2Proof/Laws/PerInstr.lean ====
section
/-! SUPPORT. A statement for every command, one lemma each: the descriptor's value as a number
(spec/30_encoding.md rules R92, R93). -/

namespace Sys2Proof.Laws

/-- The number that the four fields make (R91). -/
theorem packDescriptor_toNat (op : BitVec 4) (v : BitVec 1) (rsv : BitVec 27) (len : BitVec 32) :
    (packDescriptor op v rsv len).toNat = op.toNat * 2 ^ 60 + v.toNat * 2 ^ 59 + rsv.toNat * 2 ^ 32 + len.toNat := by
  have h1 := len.isLt
  have h2 := rsv.isLt
  have h3 := v.isLt
  unfold packDescriptor
  simp only [BitVec.toNat_append]
  rw [← Nat.shiftLeft_add_eq_or_of_lt h1, ← Nat.shiftLeft_add_eq_or_of_lt h2, ← Nat.shiftLeft_add_eq_or_of_lt h3]
  simp only [Nat.shiftLeft_eq]
  omega

/-- The match value of a command's row in spec/opcode_table.json. -/
def DescriptorValue.base : Instr → Nat
  | .seed _ => 0x1000000000000000
  | .nextBytes _ => 0x2800000000000000
  | .nextBytesNull _ => 0x2000000000000000

/-- The byte count of a command. -/
def DescriptorValue.count : Instr → Nat
  | .seed payload => payload.length
  | .nextBytes len => len.toNat
  | .nextBytesNull len => len.toNat

/-- The descriptor of a well-formed command is its row's match value plus its byte count (R92, R93). -/
def DescriptorValue.Statement (i : Instr) : Prop :=
  i.wellFormed = true → (encodeDescriptor i).toNat = DescriptorValue.base i + DescriptorValue.count i

theorem DescriptorValue.seed (payload : List Byte) : DescriptorValue.Statement (.seed payload) := by
  intro h
  have h : payload.length < 2 ^ 32 := by simpa [Instr.wellFormed] using h
  rw [encodeDescriptor, packDescriptor_toNat, BitVec.toNat_ofNat, Nat.mod_eq_of_lt h]
  rfl

theorem DescriptorValue.nextBytes (len : BitVec 32) : DescriptorValue.Statement (.nextBytes len) := by
  intro _
  rw [encodeDescriptor, packDescriptor_toNat]
  rfl

theorem DescriptorValue.nextBytesNull (len : BitVec 32) : DescriptorValue.Statement (.nextBytesNull len) := by
  intro _
  rw [encodeDescriptor, packDescriptor_toNat]
  rfl

end Sys2Proof.Laws
end

