-- ==== Sys2Proof/Laws/Ports.lean ====
section
/-! SUPPORT. What absorbing and output do not read: the host's further inputs, what has been answered, and the count of
draws. They do the same whatever these are (spec/30_encoding.md rules R97, R98, R100). -/

namespace Sys2Proof.Machine

/-- A state with other inputs, responses and draws. -/
def State.withPorts (s : State) (inputs : List HostInput) (responses : List Response) (draws : Nat) : State :=
  { s with inputs := inputs, responses := responses, entropyDraws := draws }

@[simp] theorem State.withPorts_engine (s : State) (is : List HostInput) (rs : List Response) (d : Nat) :
    (s.withPorts is rs d).engine = s.engine := rfl

@[simp] theorem State.withPorts_inputs (s : State) (is : List HostInput) (rs : List Response) (d : Nat) :
    (s.withPorts is rs d).inputs = is := rfl

@[simp] theorem State.withPorts_responses (s : State) (is : List HostInput) (rs : List Response) (d : Nat) :
    (s.withPorts is rs d).responses = rs := rfl

@[simp] theorem State.withPorts_compressRequests (s : State) (is : List HostInput) (rs : List Response) (d : Nat) :
    (s.withPorts is rs d).compressRequests = s.compressRequests := rfl

@[simp] theorem State.withPorts_entropyDraws (s : State) (is : List HostInput) (rs : List Response) (d : Nat) :
    (s.withPorts is rs d).entropyDraws = d := rfl

theorem absorbByte_withPorts (P : Params) (s : State) (is : List HostInput) (rs : List Response) (d : Nat) (b : Byte) :
    absorbByte P (s.withPorts is rs d) b = (absorbByte P s b).withPorts is rs d := by
  by_cases h : s.engine.bc.toNat = 63
  · rw [absorbByte_full P s b h, absorbByte_full P (s.withPorts is rs d) b h]
    rfl
  · rw [absorbByte_open P s b h, absorbByte_open P (s.withPorts is rs d) b h]
    rfl

theorem absorb_withPorts (P : Params) (bytes : List Byte) (s : State) (is : List HostInput) (rs : List Response) (d : Nat) :
    absorb P bytes (s.withPorts is rs d) = (absorb P bytes s).withPorts is rs d := by
  have h : bytes.foldl (absorbByte P) (s.withPorts is rs d) = (bytes.foldl (absorbByte P) s).withPorts is rs d := by
    induction bytes generalizing s with
    | nil => rfl
    | cons b bs ih => rw [List.foldl_cons, absorbByte_withPorts, ih, List.foldl_cons]
  rw [absorb_eq_bytes, absorb_eq_bytes, h]
  rfl

/-- What comes before output reads of the ports the count of draws only, and that only when Uninitialized (R160, R161). -/
theorem beginOutput_withPorts (P : Params) (s : State) (is : List HostInput) (rs : List Response) :
    beginOutput P (s.withPorts is rs s.entropyDraws) =
      (beginOutput P s).withPorts is rs (beginOutput P s).entropyDraws := by
  cases h : s.engine.es
  · have e := absorb_withPorts P s.entropy.1.toList s.entropy.2 is rs s.entropy.2.entropyDraws
    have a := absorb_seedOnly P s.entropy.1.toList s.entropy.2
    rw [beginOutput_uninitialized P s h, beginOutput_uninitialized P (s.withPorts is rs s.entropyDraws) h]
    have hs : selfSeed P (s.withPorts is rs s.entropyDraws) =
        (selfSeed P s).withPorts is rs s.entropy.2.entropyDraws := e
    have hd : (selfSeed P s).entropyDraws = s.entropy.2.entropyDraws := a.entropyDraws
    rw [hs, State.setEngine_entropyDraws, hd]
    rfl
  · rw [beginOutput_seeded P s h, beginOutput_seeded P (s.withPorts is rs s.entropyDraws) h]
    rfl
  · rw [beginOutput_expanding P s h, beginOutput_expanding P (s.withPorts is rs s.entropyDraws) h]

theorem byteStep_withPorts (P : Params) (s : State) (is : List HostInput) (rs : List Response) (d : Nat) :
    byteStep P (s.withPorts is rs d) = ((byteStep P s).1, (byteStep P s).2.withPorts is rs d) := by
  by_cases h : s.engine.ocur.val < 20
  · rw [byteStep_carry P s h, byteStep_carry P (s.withPorts is rs d) h]
    rfl
  · have h20 : s.engine.ocur.val = 20 := by have := s.engine.ocur.isLt; omega
    rw [byteStep_round P s h20, byteStep_round P (s.withPorts is rs d) h20]
    simp only [round_eq]
    rfl

theorem bytesOut_withPorts (P : Params) (n : Nat) (s : State) (is : List HostInput) (rs : List Response) (d : Nat) :
    bytesOut P n (s.withPorts is rs d) = ((bytesOut P n s).1, (bytesOut P n s).2.withPorts is rs d) := by
  induction n generalizing s with
  | zero => rfl
  | succ n ih => rw [bytesOut, byteStep_withPorts, ih, bytesOut]

/-! ## The session registers during absorbing -/

/-- Absorbing commutes with what SEED does after it (R145): dropping the carry and setting ES. -/
theorem absorb_dropCarry (P : Params) (bytes : List Byte) (s : State) (es : EngineState) :
    absorb P bytes (s.setEngine { s.engine with ocur := 20, es := es }) =
      (absorb P bytes s).setEngine { (absorb P bytes s).engine with ocur := 20, es := es } := by
  have h : bytes.foldl (absorbByte P) (s.setEngine { s.engine with ocur := 20, es := es }) =
      (bytes.foldl (absorbByte P) s).setEngine { (bytes.foldl (absorbByte P) s).engine with ocur := 20, es := es } := by
    induction bytes generalizing s with
    | nil => rfl
    | cons b bs ih =>
      rw [List.foldl_cons, List.foldl_cons, ← ih]
      congr 1
      by_cases h : s.engine.bc.toNat = 63
      · rw [absorbByte_full P s b h,
          absorbByte_full P (s.setEngine { s.engine with ocur := 20, es := es }) b h]
        rfl
      · rw [absorbByte_open P s b h,
          absorbByte_open P (s.setEngine { s.engine with ocur := 20, es := es }) b h]
        rfl
  rw [absorb_eq_bytes, absorb_eq_bytes, h]
  rfl

end Sys2Proof.Machine
end

