-- ==== Sys2Proof/Laws/Step.lean ====
section
/-! SUPPORT. What a command and a step can do, said once (spec/30_encoding.md rule R95, spec/60_exceptions.md rules
R241, R242, spec/70_reset_and_hazards.md rule R270). -/

namespace Sys2Proof.Machine

/-! ## The three commands -/

theorem nextBytes_absent (P : Params) (len : Nat) (s : State) :
    nextBytesCommand P false len s = s.raise .invalidArgument := rfl

theorem nextBytes_empty (P : Params) (s : State) : nextBytesCommand P true 0 s = s.respond [] .ok := rfl

/-- NEXTBYTES with bytes to deliver (R190): what is due first, the bytes, the answer. -/
theorem nextBytes_pos (P : Params) {len : Nat} (h : 0 < len) (s : State) :
    nextBytesCommand P true len s =
      (bytesOut P len (beginOutput P s)).2.respond (bytesOut P len (beginOutput P s)).1 .ok := by
  rw [nextBytesCommand, if_neg (by decide), if_neg (by omega), produce_eq]

/-- Every command answers a next state: `exec` neither faults nor refuses. -/
theorem exec_eq (i : Instr) (s : State) :
    exec i s = .next (match i with
      | .seed payload => seedCommand params payload s
      | .nextBytes len => nextBytesCommand params true len.toNat s
      | .nextBytesNull len => nextBytesCommand params false len.toNat s) := by
  cases i <;> rfl

/-- A command takes no further input of the host. -/
theorem exec_inputs {i : Instr} {s t : State} (h : exec i s = .next t) : t.inputs = s.inputs := by
  rw [exec_eq] at h
  cases i with
  | seed p =>
    by_cases hp : p = []
    · subst hp
      cases h
      rfl
    · dsimp only at h
      rw [seedCommand_of_ne_nil _ hp, seedBytes_eq] at h
      cases h
      exact (absorb_seedOnly params p s).inputs
  | nextBytes n =>
    rcases Nat.eq_zero_or_pos n.toNat with hn | hn
    · dsimp only at h
      rw [hn] at h
      cases h
      rfl
    · dsimp only at h
      rw [nextBytes_pos _ hn] at h
      cases h
      exact (bytesOut_outputOnly params _ _).inputs.trans (beginOutput_ports params s).inputs
  | nextBytesNull n =>
    cases h
    rfl

/-- A command leaves the engine Uninitialized only if it found it so, and then it was no output (R27). -/
theorem exec_uninitialized {i : Instr} {s t : State} (h : exec i s = .next t) (ht : t.engine.es = .uninitialized) :
    s.engine.es = .uninitialized ∧ t.entropyDraws = s.entropyDraws := by
  rw [exec_eq] at h
  cases i with
  | seed p =>
    by_cases hp : p = []
    · subst hp
      cases h
      exact ⟨ht, rfl⟩
    · dsimp only at h
      rw [seedCommand_of_ne_nil _ hp] at h
      cases h
      cases ht
  | nextBytes n =>
    rcases Nat.eq_zero_or_pos n.toNat with hn | hn
    · dsimp only at h
      rw [hn] at h
      cases h
      exact ⟨ht, rfl⟩
    · dsimp only at h
      rw [nextBytes_pos _ hn] at h
      cases h
      have e := (bytesOut_outputOnly params n.toNat (beginOutput params s)).es.trans (beginOutput_es params s)
      rw [State.respond_engine, e] at ht
      cases ht
  | nextBytesNull n =>
    cases h
    exact ⟨ht, rfl⟩

/-! ## What a step can do -/

/-- What a step can do, said once: wait; reset; run a command; answer IllegalCommand; refuse what is no command. -/
theorem step_cases (s : State) :
    (s.inputs = [] ∧ step s = .next s) ∨
    (∃ rest, s.inputs = .reset :: rest ∧ step s = .next ((s.consumed rest).resetEngine params)) ∨
    (∃ d p rest i, s.inputs = .command d p :: rest ∧ decode d p = .ok i ∧ step s = exec i (s.consumed rest)) ∨
    (∃ d p rest, s.inputs = .command d p :: rest ∧ decode d p = .error .illegalDescriptor ∧
      step s = .next ((s.consumed rest).raise .illegalCommand)) ∨
    (∃ d p rest, s.inputs = .command d p :: rest ∧ decode d p = .error .payloadLength ∧
      step s = .refused .payloadLengthMismatch) := by
  unfold step acceptInput
  cases hs : s.inputs with
  | nil => exact .inl ⟨rfl, rfl⟩
  | cons x rest =>
    cases x with
    | reset => exact .inr (.inl ⟨rest, rfl, rfl⟩)
    | command d p =>
      cases hd : decode d p with
      | ok i => exact .inr (.inr (.inl ⟨d, p, rest, i, rfl, hd, by simp only [hd]⟩))
      | error r =>
        cases r with
        | illegalDescriptor => exact .inr (.inr (.inr (.inl ⟨d, p, rest, rfl, hd, by simp only [hd]; rfl⟩)))
        | payloadLength => exact .inr (.inr (.inr (.inr ⟨d, p, rest, rfl, hd, by simp only [hd]⟩)))

/-- A run goes on after a step that answers a next state. -/
theorem run_next {k : Nat} {s u : State} (h : step s = .next u) :
    Sys2Proof.core.run (k + 1) s = Sys2Proof.core.run k u := by
  have e := Host.Core.run.eq_2 Sys2Proof.core s k
  have hs : Sys2Proof.core.step s = .next u := h
  rw [hs] at e
  exact e

/-- A run ends with a refusal. -/
theorem run_refused {k : Nat} {s : State} {r : Refusal} (h : step s = .refused r) :
    Sys2Proof.core.run (k + 1) s = .refused r := by
  have e := Host.Core.run.eq_2 Sys2Proof.core s k
  have hs : Sys2Proof.core.step s = .refused r := h
  rw [hs] at e
  exact e

end Sys2Proof.Machine
end

