-- ==== Sys2Proof/Tests/Slice0.lean ====
section
/-! SUPPORT. Tests of single steps, with results from spec/95_test_vectors.md, spec/40_block_packer.md and
spec/44_external_primitives.md; and for every statement with hypotheses a witness that meets them. -/

open Sys2Proof Sys2Proof.Machine

namespace Sys2Proof.Tests

/-! ## States -/

/-- The state of vector V-A1 as its row writes it out: after reset and `seed 616263`. -/
def seeded : State :=
  { State.reset with
    engine := { State.reset.engine with
      w := (Vector.replicate 16 0).set 0 0x61626300
      bc := 3
      sl := 3
      es := .seeded } }

/-- A state with an engine of the tester's own. -/
def withEngine (e : Engine) : State := { State.reset with engine := e }

/-- Expanding, with `k` carry bytes consumed and every other register as after reset. -/
def expanding (k : Fin 21) : State := withEngine { State.reset.engine with es := .expanding, ocur := k }

/-- One input of the host. -/
def offered (d : Descriptor) (p : List Byte) : State := { State.reset with inputs := [.command d p] }

/-- The next state, where there is one. -/
def after (o : Host.Outcome State Fault Refusal) : State :=
  match o with
  | .next t => t
  | .fault _ => State.reset
  | .refused _ => State.reset

/-! ## WellFormed: the smoke test -/

/-- R94: a seed of 2^32 bytes is no command; one byte less is. -/
theorem test_wellFormed_seed_too_long : (Instr.seed (List.replicate (2 ^ 32) 0)).wellFormed = false := by
  simp only [Instr.wellFormed, List.length_replicate]
  decide

theorem test_wellFormed_seed_longest : (Instr.seed (List.replicate (2 ^ 32 - 1) 0)).wellFormed = true := by
  simp only [Instr.wellFormed, List.length_replicate]
  decide

/-! ## Decoding: words written out bit by bit, OP V RSV LEN (R91; vectors V-D1, V-D4, V-D7, V-D8, V-D14) -/

theorem test_decode_seed :
    decode 0b0001000000000000000000000000000000000000000000000000000000000011 [0x61, 0x62, 0x63] =
      .ok (.seed [0x61, 0x62, 0x63]) := by decide

theorem test_decode_nextBytes :
    decode 0b0010100000000000000000000000000000000000000000000000000000010100 [] = .ok (.nextBytes 20) := by decide

theorem test_decode_nextBytesNull :
    decode 0b0010000000000000000000000000000000000000000000000000000000010100 [] = .ok (.nextBytesNull 20) := by decide

theorem test_decode_seed_with_v :
    decode 0b0001100000000000000000000000000000000000000000000000000000000011 [0x61, 0x62, 0x63] =
      .error .illegalDescriptor := by decide

theorem test_decode_reserved_bit_58 :
    decode 0b0010010000000000000000000000000000000000000000000000000000000000 [] = .error .illegalDescriptor := by decide

theorem test_decode_op_F : decode 0xF800000000000001 [] = .error .illegalDescriptor := by decide

/-- R97: a SEED descriptor with a payload of another length is not a command. -/
theorem test_decode_payload_length : decode 0x1000000000000003 [0x61, 0x62] = .error .payloadLength := by decide

/-- V-D3, V-D2, V-D6: the longest LEN, and the words of the empty seed and the absent buffer, encoded. -/
theorem test_encode :
    encode (.nextBytes 0xFFFFFFFF) = (0x28000000FFFFFFFF, []) ∧ encode (.seed []) = (0x1000000000000000, []) ∧
      encode (.nextBytesNull 0) = (0x2000000000000000, []) := by decide

/-- The table's numbering: the payload byte stands above the descriptor's 64 bits. -/
theorem test_decodeTableWord :
    decodeTableWord 72 0x611000000000000001 = some (.seed [0x61]) ∧
      decodeTableWord 64 0x2800000000000014 = some (.nextBytes 20) ∧ decodeTableWord 64 0x3000000000000000 = none := by
  decide

/-- R101 on the lines of program P1's form. -/
theorem test_listing : parseLine "seed 616263 ; abc".toList = some (.command 0x1000000000000003 [0x61, 0x62, 0x63]) := by
  decide +kernel

/-! ## The Block Packer (spec/40_block_packer.md R121 to R124; vectors V-P11, V-P12) -/

/-- The examples of R121, R122 and R123. -/
theorem test_append_phases :
    append (#v[0x61626300] : Vector Word 1) [0x64] 0 1 3 = (#v[0x61626364], 4) ∧
      append (#v[0, 0] : Vector Word 2) [0x65, 0x66, 0x67, 0x68] 0 4 4 = (#v[0, 0x65666768], 8) ∧
      append (#v[0, 0, 0xDEADBEEF] : Vector Word 3) [0x69] 0 1 8 = (#v[0, 0, 0x69000000], 9) := by decide

/-- V-P11 and V-P12, on the words 15 to 17 that they write. -/
theorem test_append_across_frames :
    let r := append ((Vector.replicate 32 0).set 15 0x3C3D3E00 : Work) [1, 2, 3, 4, 5, 6, 7, 8] 0 8 63
    let q := append r.1 [0x80] 0 1 r.2
    r.1[15] = 0x3C3D3E01 ∧ r.1[16] = 0x02030405 ∧ r.1[17] = 0x06070800 ∧ r.2 = 71 ∧
      q.1[17] = 0x06070880 ∧ q.2 = 72 := by decide

/-! ## The collaborators and SERIALIZE -/

/-- V-C1. -/
theorem test_compress_abc :
    params.compress params.hInit #v[0x61626380, 0, 0, 0, 0, 0, 0, 0, 0, 0, 0, 0, 0, 0, 0, 0x18] =
      #v[0xA9993E36, 0x4706816A, 0xBA3E2571, 0x7850C26C, 0x9CD0D89D] := by decide +kernel

/-- V-S2. -/
theorem test_serialize :
    digestBytes #v[0x00000001, 0x02000000, 0x00030000, 0x00000400, 0x80000000] =
      #v[0, 0, 0, 1, 2, 0, 0, 0, 0, 3, 0, 0, 0, 0, 4, 0, 0x80, 0, 0, 0] := by decide

/-! ## The commands -/

/-- V-A1. -/
theorem test_seed_abc :
    exec (.seed [0x61, 0x62, 0x63]) State.reset = .next { seeded with responses := [⟨[], .ok⟩] } :=
  congrArg Host.Outcome.next (by decide)

/-- V-W2: the 64th byte completes the block; SL and BC wrap. -/
theorem test_seed_completes_block :
    let e := (after (exec (.seed [0x3F]) (withEngine { State.reset.engine with
      w := #v[0x00010203, 0x04050607, 0x08090A0B, 0x0C0D0E0F, 0x10111213, 0x14151617, 0x18191A1B, 0x1C1D1E1F,
        0x20212223, 0x24252627, 0x28292A2B, 0x2C2D2E2F, 0x30313233, 0x34353637, 0x38393A3B, 0x3C3D3E00]
      bc := 63, sl := 0xFFFFFFFFFFFFFFFF, es := .seeded }))).engine
    e.h = #v[0xB9AC757B, 0xBC297925, 0x2E227274, 0x06872F94, 0xCBEA56A1] ∧ e.bc = 0 ∧ e.sl = 0 := by decide +kernel

/-- V-E3, round 0, on the state of V-A1. -/
theorem test_nextBytes_abc :
    let t := after (exec (.nextBytes 20) seeded)
    t.responses = [⟨[0xED, 0x22, 0x32, 0x24, 0xC7, 0xE1, 0x85, 0x7B, 0x0C, 0x02, 0x0C, 0x82, 0x28, 0x57, 0x6E, 0xC1, 0xD3,
      0x80, 0xA2, 0xEA], .ok⟩] ∧ t.engine.ctr = 1 ∧ t.engine.ocur = 20 := by decide +kernel

/-- V-E10: 63 seed bytes, the two-block layout with the counter across both frames. -/
theorem test_nextBytes_two_block :
    (after (exec (.nextBytes 20) (withEngine { State.reset.engine with
      w := #v[0x00010203, 0x04050607, 0x08090A0B, 0x0C0D0E0F, 0x10111213, 0x14151617, 0x18191A1B, 0x1C1D1E1F,
        0x20212223, 0x24252627, 0x28292A2B, 0x2C2D2E2F, 0x30313233, 0x34353637, 0x38393A3B, 0x3C3D3E00]
      bc := 63, sl := 63, es := .seeded }))).responses =
      [⟨[0xCC, 0x39, 0x5C, 0x3E, 0xB8, 0x65, 0x40, 0x03, 0x47, 0xD8, 0x52, 0x11, 0x82, 0x7B, 0x99, 0xAA, 0x23, 0x47, 0x7D,
        0x11], .ok⟩] := by decide +kernel

/-- V-X1. -/
theorem test_nextBytesNull :
    step (offered 0x2000000000000000 []) = .next { State.reset with responses := [⟨[], .invalidArgument⟩] } :=
  congrArg Host.Outcome.next (by decide)

/-- V-X7: an illegal descriptor. -/
theorem test_illegal :
    step (offered 0x3000000000000000 []) = .next { State.reset with responses := [⟨[], .illegalCommand⟩] } :=
  congrArg Host.Outcome.next (by decide)

/-- R270: reset from the state of V-A1. -/
theorem test_reset : step { seeded with inputs := [.reset] } = .next State.reset := congrArg Host.Outcome.next (by decide)

/-! ## Witnesses: a state and operands that meet a statement's hypotheses, clause by clause -/

theorem witness_DecodeOfEncode :
    (Instr.seed [0x61]).wellFormed = true ∧ (Instr.nextBytes 0xFFFFFFFF).wellFormed = true ∧
      (Instr.nextBytesNull 0xFFFFFFFF).wellFormed = true := by decide

theorem witness_EncodeOfDecode :
    decode 0x1000000000000001 [0x61] = .ok (.seed [0x61]) ∧ decode 0x28000000FFFFFFFF [] = .ok (.nextBytes 0xFFFFFFFF) ∧
      decode 0x20000000FFFFFFFF [] = .ok (.nextBytesNull 0xFFFFFFFF) := by decide

/-- The longest LEN of each of the two NEXTBYTES rows, and the shortest SEED. -/
theorem witness_TableRowsDecode :
    decode 0x1000000000000000 [] = .ok (.seed []) ∧ decode 0x28000000FFFFFFFF [] = .ok (.nextBytes 0xFFFFFFFF) ∧
      decode 0x20000000FFFFFFFF [] = .ok (.nextBytesNull 0xFFFFFFFF) := by decide

/-- Each of the three causes: the lowest reserved bit; OP 0, 3 and F; SEED with V. -/
theorem witness_IllegalDescriptors :
    decode 0x1000000100000000 [] = .error .illegalDescriptor ∧ decode 0x0000000000000000 [] = .error .illegalDescriptor ∧
      decode 0x3000000000000000 [] = .error .illegalDescriptor ∧ decode 0xF000000000000000 [] = .error .illegalDescriptor ∧
      decode 0x1800000000000000 [] = .error .illegalDescriptor ∧
      (offered 0x3000000000000000 []).inputs = .command 0x3000000000000000 [] :: [] := by decide

/-- A payload; the longest LEN, 4294967295, and the same digits one higher, which spell no LEN. -/
theorem witness_ListingLines :
    (Instr.seed [0x61, 0x62]).wellFormed = true ∧
      ([4, 2, 9, 4, 9, 6, 7, 2, 9, 5] ≠ ([] : List (Fin 10)) ∧ decimalValue [4, 2, 9, 4, 9, 6, 7, 2, 9, 5] < 2 ^ 32) ∧
      ¬decimalValue [4, 2, 9, 4, 9, 6, 7, 2, 9, 6] < 2 ^ 32 := by decide

theorem witness_StepRunsTheDecodedCommand :
    (offered 0x2800000000000014 []).inputs = .command 0x2800000000000014 [] :: [] ∧
      decode 0x2800000000000014 [] = .ok (.nextBytes 20) := by decide

theorem witness_FetchWordRunsNext :
    decodeTableWord 64 0x1000000000000001 = some (.seed [0]) ∧ decodeTableWord 64 0x2800000000000014 = some (.nextBytes 20) := by
  decide

theorem witness_ResetInput : ({ seeded with inputs := [.reset] } : State).inputs = .reset :: [] := rfl

theorem witness_ResetStateWaits : State.reset.inputs = [] := rfl

/-- The stop, and its boundary: one payload byte too few stops, the right number does not. -/
theorem witness_StepStopsOnlyOnWrongPayload :
    step (offered 0x1000000000000003 [0x61, 0x62]) = .refused .payloadLengthMismatch ∧
      decode 0x1000000000000003 [0x61, 0x62, 0x63] = .ok (.seed [0x61, 0x62, 0x63]) := ⟨rfl, by decide⟩

theorem witness_EveryCommandEndsWithOneStatus :
    (HostInput.command 0x2800000000000014 []).wellFormed = true ∧ (HostInput.command 0x2000000000000014 []).wellFormed = true ∧
      (HostInput.command 0x3000000000000000 []).wellFormed = true ∧
      (offered 0x2800000000000014 []).inputs = .command 0x2800000000000014 [] :: [] := by decide

theorem reset_inv : State.reset.Inv := by
  refine ⟨rfl, fun h => absurd rfl h, fun _ => rfl, fun h => ?_, fun _ => rfl⟩
  cases h

theorem seeded_inv : seeded.Inv := by
  refine ⟨rfl, ?_, fun _ => rfl, fun h => ?_, fun h => ?_⟩
  · decide
  · cases h
  · cases h

theorem witness_InvariantsKeptByEveryStep :
    (offered 0x2000000000000000 []).Inv ∧
      step (offered 0x2000000000000000 []) = .next { State.reset with responses := [⟨[], .invalidArgument⟩] } :=
  ⟨reset_inv, test_nextBytesNull⟩

/-- No input, the reset input, and every row of the table's commands: SEED with and without bytes, NEXTBYTES with LEN 20
and 0, the absent buffer, an illegal descriptor. -/
theorem witness_EngineStateTransitions :
    (∃ t, step State.reset = .next t) ∧ (∃ t, step { seeded with inputs := [.reset] } = .next t) ∧
      (∃ t, step (offered 0x1000000000000001 [0x61]) = .next t) ∧ (∃ t, step (offered 0x1000000000000000 []) = .next t) ∧
      (∃ t, step (offered 0x2800000000000014 []) = .next t) ∧ (∃ t, step (offered 0x2800000000000000 []) = .next t) ∧
      (∃ t, step (offered 0x2000000000000000 []) = .next t) ∧ (∃ t, step (offered 0x3000000000000000 []) = .next t) :=
  ⟨⟨_, rfl⟩, ⟨_, rfl⟩, ⟨_, rfl⟩, ⟨_, rfl⟩, ⟨_, rfl⟩, ⟨_, rfl⟩, ⟨_, rfl⟩, ⟨_, rfl⟩⟩

theorem witness_CounterCountsRounds :
    (∃ t, exec (.seed [0x61]) State.reset = .next t) ∧ (∃ t, exec (.nextBytes 20) seeded = .next t) ∧
      (∃ t, exec (.nextBytes 0) seeded = .next t) ∧ (∃ t, exec (.nextBytesNull 20) seeded = .next t) :=
  ⟨⟨_, exec_eq _ _⟩, ⟨_, exec_eq _ _⟩, ⟨_, exec_eq _ _⟩, ⟨_, exec_eq _ _⟩⟩

/-- A write of the last byte of each space, and the read of that byte. -/
theorem witness_ReadAfterWrite :
    (63 + [(0xAA : Byte)].length ≤ Space.frame.size ∧ 63 < Space.frame.size) ∧
      (127 + [(0xAA : Byte)].length ≤ Space.workT.size ∧ 127 < Space.workG.size) ∧
      (19 + [(0xAA : Byte)].length ≤ Space.carry.size ∧ 19 < Space.carry.size) := by decide

/-- A mid-word cursor over zero lanes, filling the buffer to its end; the first and last byte written, and one before. -/
theorem witness_AppendBytesAtCursor :
    (0 ≤ 3 ∧ 3 ≤ [(1 : Byte), 2, 3].length ∧ 5 + (3 - 0) ≤ 4 * 2) ∧
      (5 % 4 ≠ 0 → ∀ j < 4, 5 % 4 ≤ j → lane ((#v[0xFFFFFFFF, 0xFF000000] : Vector Word 2).getD (5 / 4) 0) j = 0) ∧
      5 < 4 * 2 ∧ 7 < 4 * 2 ∧ 4 < 4 * 2 := by decide

/-- Each of the three cases: nothing appended; a word below the cursor's; a word above the last byte's. -/
theorem witness_AppendLeavesOtherWords :
    (([] : List Byte) = []) ∧ (0 < 4 / 4) ∧ ((4 + [(1 : Byte), 2, 3, 4].length - 1) / 4 < 2) := by decide

/-- Lane 0 with three bytes; lane 1 with three; lane 3 with one. -/
theorem witness_PartialWordIsPhaseAOrC :
    (0 < 1 ∧ [(1 : Byte), 2, 3] ≠ [] ∧ 0 + [(1 : Byte), 2, 3].length ≤ 4 ∧ [(1 : Byte), 2, 3].length ≤ 3) ∧
      (1 + [(1 : Byte), 2, 3].length ≤ 4 ∧ 1 ≠ 0) ∧ (3 + [(1 : Byte)].length ≤ 4 ∧ 3 ≠ 0) := by decide

theorem witness_CompressPortOrder : 0 < 5 ∧ 4 < 5 ∧ 0 < 16 ∧ 15 < 16 := by decide

theorem witness_EmptyCommandsAreInvisible :
    (Instr.seed [] = .seed [] ∨ Instr.seed [] = .nextBytes 0) ∧ (Instr.nextBytes 0 = .seed [] ∨ Instr.nextBytes 0 = .nextBytes 0) := by
  decide

theorem witness_SeedStateChange : [(0x61 : Byte)] ≠ [] := by decide

/-- The longest payload that leaves the first block open. -/
theorem witness_SeedCountsBlocks : State.reset.engine.bc.toNat + (List.replicate 63 (0 : Byte)).length < 64 := by decide

/-- Zero lanes at an aligned byte count and at the mid-word one of V-A1; the first, the open and the last byte of the frame. -/
theorem witness_SeedFrameBytes : State.reset.engine.FreeLanesZero ∧ seeded.engine.FreeLanesZero ∧ 0 < 64 ∧ 3 < 64 ∧ 63 < 64 := by
  decide

theorem witness_SeedFoldsWholeBlocks : State.reset.engine.FreeLanesZero ∧ seeded.engine.FreeLanesZero := by decide

theorem seeded_holds : seeded.engine.Holds params [0x61, 0x62, 0x63] := ⟨rfl, rfl, rfl, rfl⟩

theorem witness_SeedRegistersHoldTheSeed :
    State.reset.engine.Holds params [] ∧ State.reset.engine.FreeLanesZero ∧
      seeded.engine.Holds params [0x61, 0x62, 0x63] ∧ seeded.engine.FreeLanesZero ∧ seeded.engine.es ≠ .uninitialized :=
  ⟨⟨rfl, rfl, rfl, rfl⟩, by decide, seeded_holds, by decide, by decide⟩

/-- The two layouts, at the byte counts where they meet, 47 and 48 (R163). -/
theorem witness_FinalizationSnapshotsTheSeed :
    seeded.engine.es = .seeded ∧ (20 : BitVec 32) ≠ 0 ∧
      layoutOf 47 = .singleBlock ∧ layoutOf 48 = .twoBlock ∧ layoutOf 63 = .twoBlock := by decide

/-- V-F3 and V-F10: a byte of each part of the template, in each layout. -/
theorem witness_TemplateBytes :
    let t := (finalize params seeded.engine).t
    let u := (finalize params { seeded.engine with bc := 63, sl := 63 }).t
    byteAt t 0 = 0x61 ∧ byteAt t 3 = 0 ∧ byteAt t 55 = 0 ∧ byteAt t 63 = 0x58 ∧ byteAt t 64 = 0 ∧
      byteAt u 56 = 0 ∧ byteAt u 119 = 0 ∧ byteAt u 126 = 0x02 ∧ byteAt u 127 = 0x38 := by decide +kernel

/-- V-G15 and V-G18: the bytes on both sides of each border of the layout, single block and two blocks. -/
theorem witness_WorkingFrameLayout :
    let g := roundFrames (finalize params { seeded.engine with ctr := 0x0102030405060708 })
    let h := roundFrames (finalize params { seeded.engine with bc := 63, sl := 63, ctr := 0x0102030405060708 })
    (byteAt g 2 = 0x63 ∧ byteAt g 3 = 1 ∧ byteAt g 10 = 8 ∧ byteAt g 11 = 0x80 ∧ byteAt g 12 = 0 ∧ byteAt g 55 = 0 ∧
      byteAt g 63 = 0x58 ∧ byteAt g 64 = 0) ∧
      (byteAt h 63 = 1 ∧ byteAt h 64 = 2 ∧ byteAt h 70 = 8 ∧ byteAt h 71 = 0x80 ∧ byteAt h 72 = 0 ∧ byteAt h 119 = 0 ∧
        byteAt h 126 = 0x02 ∧ byteAt h 127 = 0x38) := by decide +kernel

/-- V-G15: the words that hold the counter, and the first after them. -/
theorem witness_CounterWordsClosedForm :
    let g := roundFrames (finalize params { seeded.engine with ctr := 0x0102030405060708 })
    g[0] = 0x61626301 ∧ g[1] = 0x02030405 ∧ g[2] = 0x06070880 ∧ g[3] = 0 ∧
      (3 < 32 ∧ 3 ≠ 3 / 4 ∧ 3 ≠ 3 / 4 + 1 ∧ 3 ≠ 3 / 4 + 2) := by decide

theorem witness_SelfSeedIsASeedOfTheDraw :
    State.reset.Inv ∧ State.reset.engine.es = .uninitialized ∧ (20 : BitVec 32) ≠ 0 ∧ 4 < 5 :=
  ⟨reset_inv, rfl, by decide, by decide⟩

/-- The word index of each clause of the serialization, and both layouts. -/
theorem witness_RoundCompressesAndSerializes : 0 < 5 ∧ 4 < 5 ∧ layoutOf 0 = .singleBlock ∧ layoutOf 63 = .twoBlock := by decide

/-- One byte written, and on both sides of a whole digest wanted. -/
theorem witness_RoundSlicesAndCounts :
    ([(0xAA : Byte)].length < 21 ∧ 20 ≤ 21 - [(0xAA : Byte)].length) ∧
      ([(0xAA : Byte)].length < 20 ∧ ¬20 ≤ 20 - [(0xAA : Byte)].length) ∧ 19 < min 20 20 ∧ 18 < min 20 19 := by decide

/-- The carry of 13 bytes: a request it serves to its end, one byte more, and the empty carry before a finalization. -/
theorem witness_CarryGoesOutFirst :
    ((expanding 7).engine.es = .expanding ∧ (13 : BitVec 32) ≠ 0 ∧ (13 : BitVec 32).toNat ≤ 20 - (expanding 7).engine.ocur.val) ∧
      ((14 : BitVec 32) ≠ 0 ∧ ¬(14 : BitVec 32).toNat ≤ 20 - (expanding 7).engine.ocur.val) ∧
      (seeded.Inv ∧ seeded.engine.es ≠ .expanding) :=
  ⟨by decide, by decide, seeded_inv, by decide⟩

/-- The three EngineStates; no round, one round and two, at the lengths where they meet (V-O3, and 14 and 34 bytes), with
the carry of 13 bytes and with none. -/
theorem witness_OutputCountsAndFrame :
    (20 : BitVec 32) ≠ 0 ∧ (expanding 7).engine.es = .expanding ∧ (seeded.Inv ∧ seeded.engine.es = .seeded) ∧
      (State.reset.Inv ∧ State.reset.engine.es = .uninitialized) ∧
      (roundsFor 13 13 = 0 ∧ roundsFor 14 13 = 0 + 1 ∧ roundsFor 33 13 = 0 + 1 ∧ roundsFor 34 13 = 1 + 1) ∧
      (roundsFor 1 0 = 0 + 1 ∧ roundsFor 20 0 = 0 + 1 ∧ roundsFor 21 0 = 1 + 1) ∧
      cursorAfter 13 13 = 20 ∧ cursorAfter 14 13 = 1 ∧ cursorAfter 33 13 = 20 ∧ cursorAfter 20 0 = 20 ∧ cursorAfter 21 0 = 1 :=
  ⟨by decide, rfl, ⟨seeded_inv, rfl⟩, ⟨reset_inv, rfl⟩, by decide, by decide, by decide⟩

theorem witness_OutputIsCarryThenRounds : (expanding 7).engine.es = .expanding ∧ 14 ≠ 0 := by decide

theorem witness_ReseedDropsTheCarry : (expanding 7).engine.es = .expanding ∧ [(0x61 : Byte)] ≠ [] ∧ (20 : BitVec 32) ≠ 0 := by decide

theorem witness_RoundIsTheHashOfSeedAndCounter :
    params.lenBiasBits = 64 ∧ seeded.engine.Holds params [0x61, 0x62, 0x63] ∧ [(0x61 : Byte), 0x62, 0x63].length + 8 < 2 ^ 61 :=
  ⟨rfl, seeded_holds, by decide⟩

theorem witness_OutputIsTheHashStream :
    seeded.Inv ∧ seeded.engine.es = .seeded ∧ seeded.engine.Holds params [0x61, 0x62, 0x63] ∧
      [(0x61 : Byte), 0x62, 0x63].length + 8 < 2 ^ 61 ∧ (20 : BitVec 32) ≠ 0 :=
  ⟨seeded_inv, rfl, seeded_holds, by decide, by decide⟩

theorem witness_EntropyAskedOnlyUnseeded :
    (∃ t, exec (.nextBytes 20) State.reset = .next t) ∧ State.reset.engine.es = .uninitialized ∧ (20 : BitVec 32) ≠ 0 ∧
      (∃ t, exec (.nextBytes 20) seeded = .next t) ∧ seeded.engine.es ≠ .uninitialized :=
  ⟨⟨_, exec_eq _ _⟩, rfl, by decide, ⟨_, exec_eq _ _⟩, by decide⟩

theorem witness_AtMostOneDrawPerInstance :
    HostInput.reset ∉ (offered 0x2800000000000014 []).inputs ∧
      ∃ t, Sys2Proof.core.run 1 (offered 0x2800000000000014 []) = .next t ∧
        step (offered 0x2800000000000014 []) = .next t :=
  ⟨by decide, _, run_next rfl, rfl⟩

/-- Two engines that differ in every place that R37 names: W above the valid bytes, a delivered carry byte, G. -/
theorem witness_HiddenStateIsUnobservable :
    let u := withEngine { seeded.engine with
      w := ((Vector.replicate 16 0xDEADBEEF).set 0 0x61626300), oc := Vector.replicate 20 0xAA, g := Vector.replicate 32 1 }
    seeded.engine.FreeLanesZero ∧ u.engine.FreeLanesZero ∧ seeded.engine.SameVisible u.engine ∧ seeded.engine ≠ u.engine ∧
      seeded.responses = u.responses ∧ seeded.compressRequests = u.compressRequests ∧ seeded.entropyDraws = u.entropyDraws ∧
      (∃ s', exec (.nextBytes 20) seeded = .next s') ∧ (∃ u', exec (.nextBytes 20) u = .next u') := by
  refine ⟨by decide, by decide, ⟨rfl, rfl, rfl, rfl, rfl, rfl, by decide, by decide, fun h => ?_⟩, by decide, rfl, rfl, rfl,
    ⟨_, exec_eq _ _⟩, ⟨_, exec_eq _ _⟩⟩
  cases h

end Sys2Proof.Tests
end

section
/-! PROOF of the statement of spec/00_scope.md: a step is one complete command. -/

namespace Sys2Proof.Machine

/-- A transaction that decodes is accepted as its command, and only consumed (R74, R95). -/
theorem acceptInput_of_decode_ok {s : State} {d : Descriptor} {p : List Byte} {rest : List HostInput} {i : Instr}
    (hs : s.inputs = .command d p :: rest) (hd : decode d p = .ok i) :
    acceptInput s = .command i (s.consumed rest) := by
  simp only [acceptInput, hs, hd]

/-- Once a command is accepted, the step is its execution and nothing around it (R3). -/
theorem step_of_acceptInput_command {s t : State} {i : Instr} (h : acceptInput s = .command i t) :
    step s = exec i t := by
  simp only [step, h]

/-- Settles O7: the transaction is accepted as the command it decodes to, and an accepted command is executed. -/
theorem stepRunsTheDecodedCommand : Obligations.StepRunsTheDecodedCommand :=
  fun _ _ _ _ _ hs hd => step_of_acceptInput_command (acceptInput_of_decode_ok hs hd)

end Sys2Proof.Machine
end

section
/-! SUPPORT. What a command does, said once, with every one of its cases (spec/30_encoding.md rule R95;
spec/41_seed_accumulator.md rules R145, R147; spec/43_expansion.md rules R190 to R192). -/

namespace Sys2Proof.Machine

/-- What a command leads to: the empty commands and the absent buffer only answer; a SEED with bytes absorbs them; a
request for bytes runs what is due before output, and then delivers. -/
inductive CommandEffect (s : State) : Instr → State → Prop
  | emptySeed : CommandEffect s (.seed []) (s.respond [] .ok)
  | seed {p : List Byte} (hp : p ≠ []) : CommandEffect s (.seed p) ((seedBytes params p s).respond [] .ok)
  | emptyRequest : CommandEffect s (.nextBytes 0) (s.respond [] .ok)
  | request {n : BitVec 32} (hn : n ≠ 0) :
      CommandEffect s (.nextBytes n)
        ((bytesOut params n.toNat (beginOutput params s)).2.respond
          (bytesOut params n.toNat (beginOutput params s)).1 .ok)
  | absentBuffer (n : BitVec 32) : CommandEffect s (.nextBytesNull n) (s.raise .invalidArgument)

/-- A command that answers a next state does one of these. -/
theorem exec_effect {i : Instr} {s t : State} (h : exec i s = .next t) : CommandEffect s i t := by
  rw [exec_eq] at h
  cases h
  cases i with
  | seed p =>
    by_cases hp : p = []
    · subst hp
      exact .emptySeed
    · simpa only [seedCommand_of_ne_nil params hp] using CommandEffect.seed hp
  | nextBytes n =>
    by_cases hn : n = 0
    · subst hn
      exact .emptyRequest
    · have hpos : 0 < n.toNat := Nat.pos_of_ne_zero fun h0 => hn (BitVec.eq_of_toNat_eq h0)
      simpa only [nextBytes_pos params hpos] using CommandEffect.request hn
  | nextBytesNull n => exact .absentBuffer n

end Sys2Proof.Machine
end

section
/-! PROOF of the statements of spec/10_state.md section 8: the invariants of R31 hold after reset and are kept by every
step. -/

namespace Sys2Proof.Machine

/-! ## Absorbing keeps the invariants of the seed registers, I-b and I-c -/

/-- The byte count after ABSORB (R142). -/
theorem absorb_bc (P : Params) (bytes : List Byte) (s : State) :
    (absorb P bytes s).engine.bc.toNat = (s.engine.bc.toNat + bytes.length) % 64 := by
  rw [absorb_eq_bytes, State.setEngine_engine, Engine.addSeedLength_bc]
  exact (absorbBytes_counts P bytes s).1

/-- The byte count and the seed length grow alike, and 64 divides 2^64, so that a wrap of SL does no harm. -/
theorem absorb_byteCountOfLength (P : Params) (bytes : List Byte) {s : State} (h : s.engine.ByteCountOfLength) :
    (absorb P bytes s).engine.ByteCountOfLength := by
  rw [Engine.ByteCountOfLength] at h ⊢
  rw [absorb_bc, absorb_sl, BitVec.toNat_add, BitVec.toNat_ofNat]
  omega

theorem absorb_freeLanesZero (P : Params) (bytes : List Byte) {s : State} (h : s.engine.FreeLanesZero) :
    (absorb P bytes s).engine.FreeLanesZero :=
  (freeLanesZero_iff _).mpr (absorb_spec P bytes s ((freeLanesZero_iff _).mp h)).lanes

/-! ## All the invariants -/

theorem Engine.reset_inv (P : Params) : (Engine.reset P).Inv P :=
  ⟨rfl, fun h => absurd rfl h, fun _ => rfl, fun h => (nomatch h), fun _ => rfl⟩

/-- A SEED with bytes empties the carry and ends the session, so I-d to I-f ask nothing more of the engine. -/
theorem seedBytes_inv (P : Params) (p : List Byte) {s : State} (h : s.engine.Inv P) :
    (seedBytes P p s).engine.Inv P := by
  obtain ⟨hcount, hlanes, -, -, -⟩ := h
  exact ⟨absorb_byteCountOfLength P p hcount, absorb_freeLanesZero P p hlanes, fun _ => seedBytes_ocur P p s,
    fun h => (nomatch h), fun h => (nomatch h)⟩

/-- FINALIZE makes the snapshot current, whatever it was. -/
theorem finalize_inv (P : Params) {e : Engine} (hcount : e.ByteCountOfLength) (hlanes : e.FreeLanesZero) :
    (finalize P e).Inv P :=
  ⟨hcount, hlanes, fun h => absurd rfl h, fun _ => ⟨rfl, rfl, rfl, rfl⟩, fun h => (nomatch h)⟩

theorem beginOutput_inv (P : Params) {s : State} (h : s.engine.Inv P) : (beginOutput P s).engine.Inv P := by
  have ⟨hcount, hlanes, _, _, _⟩ := h
  cases hes : s.engine.es with
  | uninitialized =>
    rw [beginOutput_uninitialized P s hes]
    exact finalize_inv P (absorb_byteCountOfLength P _ (s := s.entropy.2) hcount)
      (absorb_freeLanesZero P _ (s := s.entropy.2) hlanes)
  | seeded =>
    rw [beginOutput_seeded P s hes]
    exact finalize_inv P hcount hlanes
  | expanding => rwa [beginOutput_expanding P s hes]

/-- Output writes none of the registers that the invariants of a session speak of. -/
theorem OutputOnly.inv {P : Params} {s u : State} (o : OutputOnly s u) (hes : s.engine.es = .expanding)
    (h : s.engine.Inv P) : u.engine.Inv P := by
  have hes' : u.engine.es = .expanding := o.es.trans hes
  obtain ⟨hcount, hlanes, -, hsnap, -⟩ := h
  refine ⟨?_, ?_, fun hne => absurd hes' hne, fun _ => ?_, fun hun => absurd (hes'.symm.trans hun) (by decide)⟩
  · simpa only [Engine.ByteCountOfLength, o.bc, o.sl] using hcount
  · simpa only [Engine.FreeLanesZero, o.bc, o.w] using hlanes
  · simpa only [o.hs, o.h, o.sbc, o.bc, o.layout, o.t, o.w, o.sl] using hsnap hes

theorem CommandEffect.inv {i : Instr} {s t : State} (c : CommandEffect s i t) (h : s.Inv) : t.Inv := by
  cases c with
  | emptySeed => exact h
  | seed _ => exact seedBytes_inv params _ h
  | emptyRequest => exact h
  | request _ =>
    exact (bytesOut_outputOnly params _ _).inv (beginOutput_es params s) (beginOutput_inv params h)
  | absentBuffer _ => exact h

theorem step_inv {s t : State} (h : s.Inv) (hstep : step s = .next t) : t.Inv := by
  rcases step_cases s with ⟨-, e⟩ | ⟨rest, -, e⟩ | ⟨d, p, rest, i, -, -, e⟩ | ⟨d, p, rest, -, -, e⟩ |
    ⟨d, p, rest, -, -, e⟩ <;> rw [e] at hstep
  · cases hstep
    exact h
  · cases hstep
    exact Engine.reset_inv params
  · exact (exec_effect hstep).inv h
  · cases hstep
    exact h
  · cases hstep

/-- Settles O14: I-b to I-f by the cases of a step; I-a, I-g and I-h by the types of BC, OCUR and ES. -/
theorem invariantsKeptByEveryStep : Obligations.InvariantsKeptByEveryStep := by
  intro s t h hstep
  refine ⟨step_inv h hstep, Nat.le_of_lt_succ t.engine.bc.isLt, Nat.le_of_lt_succ t.engine.ocur.isLt, ?_⟩
  cases t.engine.es <;> decide

/-- Settles O13: the reset values meet the invariants for any parameters. -/
theorem invariantsAfterReset : Obligations.InvariantsAfterReset := Engine.reset_inv params

end Sys2Proof.Machine
end

section
/-! PROOF of the statements of spec/10_state.md section 5: how ES and CTR move. -/

namespace Sys2Proof.Machine

/-- ES after a command (R27). -/
theorem CommandEffect.es {i : Instr} {s t : State} (c : CommandEffect s i t) :
    t.engine.es = match i with
      | .seed p => if p.length = 0 then s.engine.es else .seeded
      | .nextBytes n => if n = 0 then s.engine.es else .expanding
      | .nextBytesNull _ => s.engine.es := by
  cases c with
  | emptySeed => rfl
  | seed hp => exact (if_neg fun h0 => hp (List.length_eq_zero_iff.mp h0)).symm
  | emptyRequest => rfl
  | request hn =>
    exact ((bytesOut_outputOnly params _ _).es.trans (beginOutput_es params s)).trans (if_neg hn).symm
  | absentBuffer _ => rfl

/-- Settles O15, by the cases of a step and, for a command, by its effect. -/
theorem engineStateTransitions : Obligations.EngineStateTransitions := by
  intro s t hstep
  rcases step_cases s with ⟨hs, e⟩ | ⟨rest, hs, e⟩ | ⟨d, p, rest, i, hs, hd, e⟩ | ⟨d, p, rest, hs, hd, e⟩ |
    ⟨d, p, rest, hs, hd, e⟩ <;> rw [e] at hstep
  · cases hstep
    rw [hs]
  · cases hstep
    rw [hs]
    rfl
  · have hes := (exec_effect hstep).es
    simp only [hs, hd]
    cases i <;> exact hes
  · cases hstep
    simp only [hs, hd]
    rfl
  · cases hstep

/-- Settles O16: what is due before output leaves CTR alone, and `bytesOut_counts` counts the rounds after it. -/
theorem counterCountsRounds : Obligations.CounterCountsRounds := by
  intro i s t h
  cases exec_effect h with
  | emptySeed => exact (BitVec.add_zero _).symm
  | seed _ => exact (absorb_seedOnly params _ s).ctr.trans (BitVec.add_zero _).symm
  | emptyRequest => simp [roundsFor]
  | request hn =>
    dsimp only
    rw [if_neg hn, ← (beginOutput_ports params s).ctr]
    exact (bytesOut_counts params _ _).ctr
  | absentBuffer _ => exact (BitVec.add_zero _).symm

end Sys2Proof.Machine
end

section
/-! PROOF of the statement of spec/10_state.md section 11: no output depends on hidden state (R37). Each operation that a
command is made of takes states that look alike to states that look alike. -/

namespace Sys2Proof.Machine

/-- Two states that differ at most in hidden state and in the host's further inputs. -/
structure State.LooksLike (s u : State) : Prop where
  engine : s.engine.SameVisible u.engine
  responses : s.responses = u.responses
  compressRequests : s.compressRequests = u.compressRequests
  entropyDraws : s.entropyDraws = u.entropyDraws

/-! ## What engines that look alike have in common -/

theorem Engine.SameVisible.ocur {e f : Engine} (v : e.SameVisible f) : e.ocur = f.ocur := by
  obtain ⟨-, -, -, -, hocur, -, -, -, -⟩ := v
  exact hocur

theorem Engine.SameVisible.es {e f : Engine} (v : e.SameVisible f) : e.es = f.es := by
  obtain ⟨-, -, -, -, -, hes, -, -, -⟩ := v
  exact hes

theorem Engine.SameVisible.undelivered {e f : Engine} (v : e.SameVisible f) : e.undelivered = f.undelivered := by
  obtain ⟨-, -, -, -, -, -, -, hun, -⟩ := v
  exact hun

/-- The carry byte at the cursor is the first undelivered one. -/
theorem Engine.head?_undelivered (e : Engine) (h : e.ocur.val < 20) : e.undelivered.head? = some e.oc[e.ocur.val] := by
  simp [Engine.undelivered, List.head?_drop, h]

theorem Engine.SameVisible.nextByte {e f : Engine} (v : e.SameVisible f) (he : e.ocur.val < 20) (hf : f.ocur.val < 20) :
    e.oc[e.ocur.val] = f.oc[f.ocur.val] := by
  apply Option.some.inj
  rw [← e.head?_undelivered he, ← f.head?_undelivered hf, v.undelivered]

/-! ## Operations on the engine alone -/

/-- In a session every register that a round reads is visible. -/
theorem Engine.SameVisible.roundFrames {e f : Engine} (v : e.SameVisible f) (hes : e.es = .expanding) :
    roundFrames e = roundFrames f := by
  obtain ⟨-, -, -, hctr, -, -, -, -, hsnap⟩ := v
  obtain ⟨-, hsbc, -, ht⟩ := hsnap hes
  simp only [Machine.roundFrames, hctr, hsbc, ht]

theorem Engine.SameVisible.afterRound (P : Params) {e f : Engine} (v : e.SameVisible f) (hes : e.es = .expanding) :
    (e.afterRound P).SameVisible (f.afterRound P) := by
  have hg := v.roundFrames hes
  obtain ⟨hbc, hh, hsl, hctr, -, hes', hw, -, hsnap⟩ := v
  obtain ⟨hhs, hsbc, hlayout, ht⟩ := hsnap hes
  refine ⟨hbc, hh, hsl, hctr, rfl, hes', hw, ?_, hsnap⟩
  simp only [Engine.undelivered, Engine.afterRound_oc, Engine.afterRound_ocur, hg, hhs, hlayout]

/-- Moving the cursor on from where it stands takes the first of the undelivered bytes away. -/
theorem Engine.undelivered_setOcur (e : Engine) {m : Nat} (hle : e.ocur.val ≤ m) (hm : m ≤ 20) :
    (e.setOcur m).undelivered = e.undelivered.drop (m - e.ocur.val) := by
  rw [Engine.undelivered, Engine.undelivered, Engine.setOcur_val e hm, Engine.setOcur_oc, List.drop_drop,
    Nat.add_sub_cancel' hle]

theorem Engine.SameVisible.setOcur {e f : Engine} (v : e.SameVisible f) {m : Nat} (hle : e.ocur.val ≤ m) (hm : m ≤ 20) :
    (e.setOcur m).SameVisible (f.setOcur m) := by
  obtain ⟨hbc, hh, hsl, hctr, hocur, hes, hw, hun, hsnap⟩ := v
  refine ⟨hbc, hh, hsl, hctr, rfl, hes, hw, ?_, hsnap⟩
  rw [e.undelivered_setOcur hle hm, f.undelivered_setOcur (hocur ▸ hle) hm, hun, hocur]

theorem Engine.SameVisible.stepCounter {e f : Engine} (v : e.SameVisible f) : e.stepCounter.SameVisible f.stepCounter := by
  obtain ⟨hbc, hh, hsl, hctr, rest⟩ := v
  exact ⟨hbc, hh, hsl, congrArg (· + 1) hctr, rest⟩

/-- FINALIZE reads the frame through its valid bytes only, so it makes the same snapshot. -/
theorem Engine.SameVisible.finalize (P : Params) {e f : Engine} (v : e.SameVisible f) :
    (finalize P e).SameVisible (finalize P f) := by
  obtain ⟨hbc, hh, hsl, hctr, hocur, -, hw, hun, -⟩ := v
  refine ⟨hbc, hh, hsl, hctr, hocur, rfl, hw, hun, fun _ => ⟨hh, hbc, congrArg layoutOf hbc, ?_⟩⟩
  rw [← hbc] at hw
  rw [finalize_t, finalize_t, ← hbc, ← hsl, template_congr hw]

/-- After a SEED with bytes the carry is empty and no snapshot is in use. -/
theorem Engine.SameVisible.dropCarry {e f : Engine} (v : e.SameVisible f) :
    Engine.SameVisible { e with ocur := 20, es := .seeded } { f with ocur := 20, es := .seeded } := by
  obtain ⟨hbc, hh, hsl, hctr, -, -, hw, -, -⟩ := v
  have delivered : ∀ g : Engine, Engine.undelivered { g with ocur := 20, es := .seeded } = [] := fun g =>
    List.drop_eq_nil_of_le (by simp)
  exact ⟨hbc, hh, hsl, hctr, rfl, rfl, hw, (delivered e).trans (delivered f).symm, fun h => (nomatch h)⟩

/-- A round delivers none of its bytes (R196). -/
theorem round_ocur_val (P : Params) (s : State) : (round P s).engine.ocur.val = 0 := by
  rw [round_engine, Engine.afterRound_ocur]
  rfl

/-! ## Operations on the state -/

namespace State.LooksLike

theorem setEngine {s u : State} (l : s.LooksLike u) {e f : Engine} (v : e.SameVisible f) :
    (s.setEngine e).LooksLike (u.setEngine f) :=
  ⟨v, l.responses, l.compressRequests, l.entropyDraws⟩

theorem respond {s u : State} (l : s.LooksLike u) (out : List Byte) (st : Status) :
    (s.respond out st).LooksLike (u.respond out st) :=
  ⟨l.engine, congrArg (· ++ [Response.mk out st]) l.responses, l.compressRequests, l.entropyDraws⟩

/-- ABSORB reads the frame through its valid bytes only, if the lanes it fills are zero. -/
theorem absorb (P : Params) (bytes : List Byte) {s u : State} (l : s.LooksLike u) (hs : s.engine.FreeLanesZero)
    (hu : u.engine.FreeLanesZero) : (absorb P bytes s).LooksLike (absorb P bytes u) := by
  obtain ⟨⟨-, hh, hsl, hctr, hocur, hes, hw, hun, hsnap⟩, hresp, hreq, hdraws⟩ := l
  have as := absorb_spec P bytes s ((freeLanesZero_iff _).mp hs)
  have au := absorb_spec P bytes u ((freeLanesZero_iff _).mp hu)
  have os := absorb_seedOnly P bytes s
  have ou := absorb_seedOnly P bytes u
  rw [← hw] at au
  refine ⟨⟨?_, ?_, ?_, ?_, ?_, ?_, ?_, ?_, ?_⟩, ?_, ?_, ?_⟩
  · exact BitVec.eq_of_toNat_eq (as.bc.trans au.bc.symm)
  · rw [as.h, au.h, hh]
  · rw [absorb_sl, absorb_sl, hsl]
  · rw [os.ctr, ou.ctr, hctr]
  · rw [os.ocur, ou.ocur, hocur]
  · rw [os.es, ou.es, hes]
  · exact as.bytes.trans au.bytes.symm
  · simpa only [Engine.undelivered, os.oc, os.ocur, ou.oc, ou.ocur] using hun
  · simpa only [os.es, os.hs, os.sbc, os.layout, os.t, ou.hs, ou.sbc, ou.layout, ou.t] using hsnap
  · rw [os.responses, ou.responses, hresp]
  · rw [as.requests, au.requests, hh, hreq]
  · rw [os.entropyDraws, ou.entropyDraws, hdraws]

theorem seedBytes (P : Params) (p : List Byte) {s u : State} (l : s.LooksLike u) (hs : s.engine.FreeLanesZero)
    (hu : u.engine.FreeLanesZero) : (seedBytes P p s).LooksLike (seedBytes P p u) := by
  have la := l.absorb P p hs hu
  rw [seedBytes_eq, seedBytes_eq]
  exact la.setEngine la.engine.dropCarry

/-- States that look alike have drawn equally often, so the entropy source answers them alike. -/
theorem selfSeed (P : Params) {s u : State} (l : s.LooksLike u) (hs : s.engine.FreeLanesZero)
    (hu : u.engine.FreeLanesZero) : (selfSeed P s).LooksLike (selfSeed P u) := by
  have le : s.entropy.2.LooksLike u.entropy.2 :=
    ⟨l.engine, l.responses, l.compressRequests, congrArg (· + 1) l.entropyDraws⟩
  have ha : s.entropy.1 = u.entropy.1 := congrArg Config.entropyAnswer l.entropyDraws
  simp only [Machine.selfSeed, selfSeedWith, ha]
  exact le.absorb P _ hs hu

theorem beginOutput (P : Params) {s u : State} (l : s.LooksLike u) (hs : s.engine.FreeLanesZero)
    (hu : u.engine.FreeLanesZero) : (beginOutput P s).LooksLike (beginOutput P u) := by
  have hes := l.engine.es
  cases h : s.engine.es with
  | uninitialized =>
    have lss := l.selfSeed P hs hu
    rw [beginOutput_uninitialized P s h, beginOutput_uninitialized P u (hes.symm.trans h)]
    exact lss.setEngine (lss.engine.finalize P)
  | seeded =>
    rw [beginOutput_seeded P s h, beginOutput_seeded P u (hes.symm.trans h)]
    exact l.setEngine (l.engine.finalize P)
  | expanding => rwa [beginOutput_expanding P s h, beginOutput_expanding P u (hes.symm.trans h)]

theorem round (P : Params) {s u : State} (l : s.LooksLike u) (hes : s.engine.es = .expanding) :
    (round P s).LooksLike (round P u) := by
  have hg := l.engine.roundFrames hes
  have ha := l.engine.afterRound P hes
  obtain ⟨⟨-, -, -, -, -, -, -, -, hsnap⟩, hresp, hreq, hdraws⟩ := l
  obtain ⟨hhs, -, hlayout, -⟩ := hsnap hes
  rw [round_eq, round_eq]
  refine ⟨ha, hresp, ?_, hdraws⟩
  simp only [hreq, hhs, hlayout, hg]

/-- The next byte of output is the byte at the cursor, after a round if the carry is empty. -/
theorem byteStep (P : Params) {s u : State} (l : s.LooksLike u) (hes : s.engine.es = .expanding) :
    (byteStep P s).1 = (byteStep P u).1 ∧ (byteStep P s).2.LooksLike (byteStep P u).2 := by
  have hocur : s.engine.ocur.val = u.engine.ocur.val := congrArg Fin.val l.engine.ocur
  have hc := s.engine.ocur.isLt
  by_cases h : s.engine.ocur.val < 20
  · have hu : u.engine.ocur.val < 20 := hocur ▸ h
    have v := l.engine.setOcur (m := s.engine.ocur.val + 1) (by omega) (by omega)
    rw [byteStep_carry P s h, byteStep_carry P u hu]
    refine ⟨l.engine.nextByte h hu, l.setEngine ?_⟩
    rwa [← hocur]
  · have h20 : s.engine.ocur.val = 20 := by omega
    have lr := l.round P hes
    have v := lr.engine.setOcur (m := 1) (by rw [round_ocur_val]; omega) (by omega)
    rw [byteStep_round P s h20, byteStep_round P u (hocur ▸ h20)]
    refine ⟨?_, lr.setEngine v.stepCounter⟩
    simpa only [round_ocur_val] using lr.engine.nextByte (by rw [round_ocur_val]; omega) (by rw [round_ocur_val]; omega)

theorem bytesOut (P : Params) (n : Nat) {s u : State} (l : s.LooksLike u) (hes : s.engine.es = .expanding) :
    (bytesOut P n s).1 = (bytesOut P n u).1 ∧ (bytesOut P n s).2.LooksLike (bytesOut P n u).2 := by
  induction n generalizing s u with
  | zero => exact ⟨rfl, l⟩
  | succ n ih =>
    obtain ⟨hbyte, lb⟩ := l.byteStep P hes
    obtain ⟨hbytes, lbs⟩ := ih lb ((byteStep_outputOnly P s).es.trans hes)
    exact ⟨congrArg₂ List.cons hbyte hbytes, lbs⟩

end State.LooksLike

/-! ## Commands -/

/-- The same command, in states that look alike, has effects that look alike. -/
theorem CommandEffect.looksLike {i : Instr} {s u s' u' : State} (cs : CommandEffect s i s') (cu : CommandEffect u i u')
    (l : s.LooksLike u) (hs : s.engine.FreeLanesZero) (hu : u.engine.FreeLanesZero) : s'.LooksLike u' := by
  cases cs with
  | emptySeed =>
    cases cu with
    | emptySeed => exact l.respond [] .ok
    | seed hp => exact absurd rfl hp
  | seed hp =>
    cases cu with
    | emptySeed => exact absurd rfl hp
    | seed _ => exact (l.seedBytes params _ hs hu).respond [] .ok
  | emptyRequest =>
    cases cu with
    | emptyRequest => exact l.respond [] .ok
    | request hn => exact absurd rfl hn
  | request hn =>
    cases cu with
    | emptyRequest => exact absurd rfl hn
    | request _ =>
      obtain ⟨hbytes, lb⟩ := (l.beginOutput params hs hu).bytesOut params _ (beginOutput_es params s)
      rw [hbytes]
      exact lb.respond _ .ok
  | absentBuffer _ =>
    cases cu
    exact l.respond [] Exception.invalidArgument.status

/-- Settles O52: the two machines look alike before the command, and so after it. -/
theorem hiddenStateIsUnobservable : Obligations.HiddenStateIsUnobservable := by
  intro i s u s' u' hs hu hv hresp hreq hdraws es eu
  have l := (exec_effect es).looksLike (exec_effect eu) ⟨hv, hresp, hreq, hdraws⟩ hs hu
  exact ⟨l.responses, l.compressRequests, l.entropyDraws, l.engine⟩

end Sys2Proof.Machine
end

section
/-! PROOF of the statements of spec/20_memory.md: a read of an address space after a write (section 3), and a 64-bit value
appended at an aligned cursor (section 2). -/

namespace Sys2Proof.Machine

/-! ## One byte of a space after a write (R64) -/

theorem readBytes_one {n : Nat} (B : Vector Word n) (k : Nat) : readBytes B k 1 = [byteAt B k] := by
  rw [readBytes_succ, readBytes_zero, List.nil_append, Nat.add_zero]

theorem readBytes_one_writeBytes {n : Nat} (B : Vector Word n) (v : List Byte) (a k : Nat) (h : a + v.length ≤ 4 * n) :
    readBytes (writeBytes B a v) k 1 =
      if a ≤ k ∧ k < a + v.length then [v.getD (k - a) 0] else readBytes B k 1 := by
  rw [readBytes_one, readBytes_one, byteAt_writeBytes v B a k h]
  exact apply_ite (fun b => [b]) _ _ _

/-- A byte of the carry after a write of bytes: exactly the addressed indices are replaced. -/
theorem getElem_writeCarry (v : List Byte) (oc : Vector Byte 20) (a k : Nat) (hk : k < 20) :
    (writeCarry oc a v)[k] = if a ≤ k ∧ k < a + v.length then v.getD (k - a) 0 else oc[k] := by
  induction v generalizing oc a with
  | nil => rw [if_neg (by simp), writeCarry]
  | cons b bs ih =>
    rw [writeCarry, ih, Vector.getElem_setIfInBounds, List.length_cons]
    by_cases hka : a = k
    · subst hka
      rw [if_neg (by omega), if_pos rfl, if_pos (by omega), Nat.sub_self, List.getD_cons_zero]
    · by_cases hin : a + 1 ≤ k ∧ k < a + 1 + bs.length
      · rw [if_pos hin, if_pos (by omega), show k - a = (k - (a + 1)) + 1 by omega, List.getD_cons_succ]
      · rw [if_neg hin, if_neg hka, if_neg (by omega)]

theorem memRead_carry_one (e : Engine) {k : Nat} (hk : k < 20) : e.memRead .carry k 1 = [e.oc[k]] := by
  rw [memRead_carry, List.drop_eq_getElem_cons (by simpa using hk), List.take_succ_cons, List.take_zero,
    Vector.getElem_toList]

theorem memRead_carry_one_memWrite (e : Engine) (v : List Byte) (a : Nat) {k : Nat} (hk : k < 20) :
    (e.memWrite .carry a v).memRead .carry k 1 =
      if a ≤ k ∧ k < a + v.length then [v.getD (k - a) 0] else e.memRead .carry k 1 := by
  rw [memRead_carry_one _ hk, memRead_carry_one _ hk, Engine.memWrite, getElem_writeCarry v e.oc a k hk]
  exact apply_ite (fun b => [b]) _ _ _

/-- In the space written, the addressed bytes are replaced and no other. -/
theorem memRead_one_memWrite_same (e : Engine) (sp : Space) (v : List Byte) {a k : Nat} (h : a + v.length ≤ sp.size)
    (hk : k < sp.size) :
    (e.memWrite sp a v).memRead sp k 1 =
      if a ≤ k ∧ k < a + v.length then [v.getD (k - a) 0] else e.memRead sp k 1 := by
  cases sp with
  | frame => exact readBytes_one_writeBytes e.w v a k h
  | workT => exact readBytes_one_writeBytes e.t v a k h
  | workG => exact readBytes_one_writeBytes e.g v a k h
  | carry => exact memRead_carry_one_memWrite e v a hk

/-- The spaces are disjoint registers (R60): a write to one leaves every read of another alone, in range or not. -/
theorem memRead_memWrite_of_ne (e : Engine) {sp sq : Space} (h : sq ≠ sp) (a b n : Nat) (v : List Byte) :
    (e.memWrite sp a v).memRead sq b n = e.memRead sq b n := by
  cases sp <;> cases sq <;> simp [Engine.memRead, Engine.memWrite] at h ⊢

/-- Settles O17: the space written by its own bytes, every other space as disjoint from it. -/
theorem readAfterWrite : Obligations.ReadAfterWrite := by
  intro e sp sq a v h k hk
  by_cases hs : sq = sp
  · subst hs
    simpa only [true_and] using memRead_one_memWrite_same e sq v h hk
  · rw [memRead_memWrite_of_ne e hs, if_neg fun c => hs c.1]

/-! ## Words appended at an aligned cursor (R63, R128) -/

theorem wordOfBytes_lanes (w : Word) : wordOfBytes (lane w 0) (lane w 1) (lane w 2) (lane w 3) = w := by
  apply word_ext_lanes
  intro j hj
  rw [lane_wordOfBytes _ _ _ _ hj]
  have h : j = 0 ∨ j = 1 ∨ j = 2 ∨ j = 3 := by omega
  rcases h with rfl | rfl | rfl | rfl <;> rfl

/-- The four bytes of a word, pushed at an aligned cursor, write that word. -/
theorem pushBytes_be32 {n : Nat} (B : Vector Word n) (w : Word) (bs : List Byte) (c : Nat) (hc : c % 4 = 0) :
    pushBytes B (be32 w ++ bs) c = pushBytes (B.setIfInBounds (c / 4) w) bs (c + 4) := by
  have h := pushBytes_word B (lane w 0) (lane w 1) (lane w 2) (lane w 3) bs c hc
  rwa [wordOfBytes_lanes] at h

/-- `BE64` is the high half's bytes and then the low half's (R11). -/
theorem be64_eq_be32_halves (v : DWord) : be64 v = be32 (hiWord v) ++ be32 (loWord v) := by
  simp (disch := decide) only [be32, lane_hiWord, lane_loWord]
  rfl

/-- Settles O22: BE64 is the bytes of two words, each pushed at an aligned cursor. -/
theorem eightBytesAreTwoWords : Obligations.EightBytesAreTwoWords := by
  intro nw B v i
  have hi : 4 * i / 4 = i := by omega
  have hi' : (4 * i + 4) / 4 = i + 1 := by omega
  calc append B (be64 v) 0 8 (4 * i)
      = pushBytes B (be32 (hiWord v) ++ (be32 (loWord v) ++ [])) (4 * i) := by
        rw [List.append_nil, ← be64_eq_be32_halves]
        exact append_eq_push B (be64 v) 0 8 (4 * i)
    _ = ((B.setIfInBounds i (hiWord v)).setIfInBounds (i + 1) (loWord v), 4 * i + 8) := by
        rw [pushBytes_be32 _ _ _ _ (by omega), pushBytes_be32 _ _ _ _ (by omega), hi, hi', pushBytes]

end Sys2Proof.Machine
end

section
/-! SUPPORT. The decoder over the two halves of the descriptor's number (spec/30_encoding.md rules R92 to R97): the upper
32 bits, which hold OP, V and RSV, choose the row, and the lower 32 are LEN. One lemma says when each outcome is decoded. -/

namespace Sys2Proof

/-- The decoder by the rows of the opcode table, each by the upper half of its match value (R92, R93). -/
theorem decode_eq_rows (d : Descriptor) (p : List Byte) :
    decode d p =
      if d.toNat / 2 ^ 32 = 0x10000000 then
        if p.length = d.toNat % 2 ^ 32 then .ok (.seed p) else .error .payloadLength
      else if d.toNat / 2 ^ 32 = 0x28000000 then .ok (.nextBytes (descLen d))
      else if d.toNat / 2 ^ 32 = 0x20000000 then .ok (.nextBytesNull (descLen d))
      else .error .illegalDescriptor := by
  have hd := d.isLt
  rw [decode_eq]
  by_cases hrsv : d.toNat / 2 ^ 32 % 2 ^ 27 ≠ 0
  · rw [if_pos hrsv, if_neg (by omega), if_neg (by omega), if_neg (by omega)]
  · have seed : (d.toNat / 2 ^ 60 = 1 ∧ d.toNat / 2 ^ 59 % 2 = 0) ↔ d.toNat / 2 ^ 32 = 0x10000000 := by omega
    have next : (d.toNat / 2 ^ 60 = 2 ∧ d.toNat / 2 ^ 59 % 2 = 1) ↔ d.toNat / 2 ^ 32 = 0x28000000 := by omega
    have null : (d.toNat / 2 ^ 60 = 2 ∧ d.toNat / 2 ^ 59 % 2 = 0) ↔ d.toNat / 2 ^ 32 = 0x20000000 := by omega
    rw [if_neg hrsv]
    simp only [seed, next, null]

/-- The upper half of the match value of a command's row (R92, R93). -/
def Instr.rowUpper : Instr → Nat
  | .seed _ => 0x10000000
  | .nextBytes _ => 0x28000000
  | .nextBytesNull _ => 0x20000000

theorem descLen_eq_iff {d : Descriptor} {n : BitVec 32} : descLen d = n ↔ d.toNat % 2 ^ 32 = n.toNat := by
  rw [← BitVec.toNat_inj, descLen_toNat]

/-- A command is decoded exactly from its row's upper half with its byte count below it, a SEED from its own payload. -/
theorem decode_eq_ok_iff {d : Descriptor} {p : List Byte} {i : Instr} :
    decode d p = .ok i ↔
      d.toNat / 2 ^ 32 = i.rowUpper ∧ d.toNat % 2 ^ 32 = Laws.DescriptorValue.count i ∧ ∀ q, i = .seed q → q = p := by
  constructor
  · intro h
    rw [decode_eq_rows] at h
    split_ifs at h with seed len next null <;> cases h
    · exact ⟨seed, len.symm, fun _ hq => (Instr.seed.inj hq).symm⟩
    · exact ⟨next, (descLen_toNat d).symm, fun _ hq => nomatch hq⟩
    · exact ⟨null, (descLen_toNat d).symm, fun _ hq => nomatch hq⟩
  · rintro ⟨upper, lower, payload⟩
    rw [decode_eq_rows, upper]
    cases i with
    | seed q =>
      obtain rfl := payload q rfl
      exact if_pos lower.symm
    | nextBytes n =>
      obtain rfl := descLen_eq_iff.mpr lower
      rfl
    | nextBytesNull n =>
      obtain rfl := descLen_eq_iff.mpr lower
      rfl

theorem decode_eq_seed_iff {d : Descriptor} {p q : List Byte} :
    decode d p = .ok (.seed q) ↔ d.toNat / 2 ^ 32 = 0x10000000 ∧ p.length = d.toNat % 2 ^ 32 ∧ q = p := by
  rw [decode_eq_ok_iff]
  constructor
  · rintro ⟨upper, lower, payload⟩
    obtain rfl := payload q rfl
    exact ⟨upper, lower.symm, rfl⟩
  · rintro ⟨upper, lower, rfl⟩
    exact ⟨upper, lower.symm, fun _ hq => (Instr.seed.inj hq).symm⟩

theorem decode_eq_nextBytes_iff {d : Descriptor} {p : List Byte} {n : BitVec 32} :
    decode d p = .ok (.nextBytes n) ↔ d.toNat / 2 ^ 32 = 0x28000000 ∧ descLen d = n := by
  rw [decode_eq_ok_iff, descLen_eq_iff]
  exact and_congr_right fun _ => and_iff_left fun _ hq => nomatch hq

theorem decode_eq_nextBytesNull_iff {d : Descriptor} {p : List Byte} {n : BitVec 32} :
    decode d p = .ok (.nextBytesNull n) ↔ d.toNat / 2 ^ 32 = 0x20000000 ∧ descLen d = n := by
  rw [decode_eq_ok_iff, descLen_eq_iff]
  exact and_congr_right fun _ => and_iff_left fun _ hq => nomatch hq

theorem decode_eq_payloadLength_iff {d : Descriptor} {p : List Byte} :
    decode d p = .error .payloadLength ↔ d.toNat / 2 ^ 32 = 0x10000000 ∧ p.length ≠ d.toNat % 2 ^ 32 := by
  rw [decode_eq_rows]
  split_ifs with seed len next null
  · exact iff_of_false (fun h => nomatch h) fun h => h.2 len
  · exact iff_of_true rfl ⟨seed, len⟩
  all_goals exact iff_of_false (fun h => nomatch h) fun h => seed h.1

theorem decode_eq_illegalDescriptor_iff {d : Descriptor} {p : List Byte} :
    decode d p = .error .illegalDescriptor ↔
      d.toNat / 2 ^ 32 ≠ 0x10000000 ∧ d.toNat / 2 ^ 32 ≠ 0x28000000 ∧ d.toNat / 2 ^ 32 ≠ 0x20000000 := by
  rw [decode_eq_rows]
  split_ifs with seed len next null
  · exact iff_of_false (fun h => nomatch h) fun h => h.1 seed
  · exact iff_of_false (fun h => nomatch h) fun h => h.1 seed
  · exact iff_of_false (fun h => nomatch h) fun h => h.2.1 next
  · exact iff_of_false (fun h => nomatch h) fun h => h.2.2 null
  · exact iff_of_true rfl ⟨seed, next, null⟩

end Sys2Proof
end

section
/-! PROOF of the statements of spec/30_encoding.md about the encoder, the decoder and the opcode table's rows: section 2
(R91), section 3 (R94), section 4 (R92, R93) and section 5 (R95). -/

namespace Sys2Proof.Machine

open Sys2Proof.Laws

/-! ## The number of an encoded command -/

theorem descriptorCount_lt {i : Instr} (h : i.wellFormed = true) : DescriptorValue.count i < 2 ^ 32 := by
  cases i with
  | seed p => exact of_decide_eq_true h
  | nextBytes n => exact n.isLt
  | nextBytesNull n => exact n.isLt

theorem descriptorBase_eq (i : Instr) : DescriptorValue.base i = i.rowUpper * 2 ^ 32 := by
  cases i <;> norm_num [DescriptorValue.base, Instr.rowUpper]

/-- The descriptor of a command is its row's upper half over its byte count. -/
theorem encodeDescriptor_toNat {i : Instr} (h : i.wellFormed = true) :
    (encodeDescriptor i).toNat = i.rowUpper * 2 ^ 32 + DescriptorValue.count i := by
  rw [← descriptorBase_eq]
  cases i with
  | seed p => exact DescriptorValue.seed p h
  | nextBytes n => exact DescriptorValue.nextBytes n h
  | nextBytesNull n => exact DescriptorValue.nextBytesNull n h

/-- The host sends a SEED its payload. -/
theorem encodePayload_of_eq_seed {i : Instr} {q : List Byte} (h : i = .seed q) : q = encodePayload i := by
  rw [h, encodePayload]

/-! ## Encoding and decoding -/

/-- Settles O2: the encoded number has the row's upper half and the byte count below it, which is all that the decoder asks
for. -/
theorem decodeOfEncode : Obligations.DecodeOfEncode := by
  intro i h
  have hc := descriptorCount_lt h
  have hn := encodeDescriptor_toNat h
  exact decode_eq_ok_iff.mpr ⟨by omega, by omega, fun _ => encodePayload_of_eq_seed⟩

/-- Settles O3: a row's upper half and LEN below it leave no bit of the descriptor undetermined. -/
theorem encodeOfDecode : Obligations.EncodeOfDecode := by
  intro d p i h
  obtain ⟨upper, lower, payload⟩ := decode_eq_ok_iff.mp h
  have hwf : i.wellFormed = true := by
    cases i with
    | seed q => exact decide_eq_true (lower.symm.trans_lt (Nat.mod_lt _ (by decide)))
    | nextBytes n => rfl
    | nextBytesNull n => rfl
  have hn := encodeDescriptor_toNat hwf
  exact ⟨hwf, BitVec.eq_of_toNat_eq (by omega), payload⟩

/-! ## The rows of the opcode table -/

/-- The table's mask keeps the upper half of a descriptor and clears LEN. -/
theorem and_rowMask_toNat (d : Descriptor) : (d &&& 0xFFFFFFFF00000000).toNat = d.toNat / 2 ^ 32 * 2 ^ 32 := by
  have hd := d.isLt
  have mask : (0xFFFFFFFF00000000 : Descriptor) = BitVec.allOnes 64 <<< 32 := by decide
  rw [mask, ← BitVec.shiftLeft_ushiftRight, BitVec.toNat_shiftLeft, BitVec.toNat_ushiftRight, Nat.shiftRight_eq_div_pow,
    Nat.shiftLeft_eq]
  omega

/-- A descriptor matches a row under the mask when its upper half is the row's. -/
theorem and_rowMask_eq_iff {d m : Descriptor} (hm : m.toNat % 2 ^ 32 = 0) :
    d &&& 0xFFFFFFFF00000000 = m ↔ d.toNat / 2 ^ 32 = m.toNat / 2 ^ 32 := by
  rw [← BitVec.toNat_inj, and_rowMask_toNat]
  omega

/-- Settles O4: matching a row under the mask is having its upper half. -/
theorem tableRowsDecode : Obligations.TableRowsDecode := by
  intro d p
  simp only [decode_eq_seed_iff, decode_eq_nextBytes_iff, decode_eq_nextBytesNull_iff]
  rw [and_rowMask_eq_iff (by decide), and_rowMask_eq_iff (by decide), and_rowMask_eq_iff (by decide)]
  refine ⟨⟨?_, ?_⟩, ⟨?_, ?_⟩, ⟨?_, ?_⟩, ?_⟩
  · exact fun ⟨_, upper, len, _⟩ => ⟨upper, len⟩
  · exact fun ⟨upper, len⟩ => ⟨p, upper, len, rfl⟩
  · exact fun ⟨_, upper, _⟩ => upper
  · exact fun upper => ⟨_, upper, rfl⟩
  · exact fun ⟨_, upper, _⟩ => upper
  · exact fun upper => ⟨_, upper, rfl⟩
  · exact fun n ⟨_, len⟩ => (descLen_eq_iff.mp len).symm

end Sys2Proof.Machine
end

section
/-! PROOF of the statements of spec/30_encoding.md sections 5 to 7 (R96 to R98) and spec/60_exceptions.md section 1 about
what a step does with a transaction: a command, an illegal descriptor, or no command at all. -/

namespace Sys2Proof.Machine

/-! ## Accepting a transaction -/

theorem step_of_decode_ok {s : State} {d : Descriptor} {p : List Byte} {rest : List HostInput} {i : Instr}
    (hs : s.inputs = .command d p :: rest) (hd : decode d p = .ok i) : step s = exec i (s.consumed rest) :=
  step_of_acceptInput_command (acceptInput_of_decode_ok hs hd)

/-- Settles O8: a table word's transaction is the next to be accepted, and consuming it gives the state back. -/
theorem fetchWordRunsNext : Obligations.FetchWordRunsNext := by
  intro s nbits w i h
  have hd : decode (tableTransaction nbits w).1 (tableTransaction nbits w).2 = .ok i := by
    rw [decodeTableWord] at h
    split at h
    next j hj => rwa [Option.some.inj h] at hj
    next => cases h
  exact step_of_decode_ok (State.offer_inputs s _ _) hd

/-- On an illegal descriptor a step only answers IllegalCommand (R96, R242). -/
theorem step_of_decode_illegalDescriptor {s : State} {d : Descriptor} {p : List Byte} {rest : List HostInput}
    (hs : s.inputs = .command d p :: rest) (hd : decode d p = .error .illegalDescriptor) :
    step s = .next ((s.consumed rest).raise .illegalCommand) := by
  simp only [step, acceptInput, hs, hd, illegalStep]

/-- A SEED descriptor with a payload of another length is refused (R97). -/
theorem step_of_decode_payloadLength {s : State} {d : Descriptor} {p : List Byte} {rest : List HostInput}
    (hs : s.inputs = .command d p :: rest) (hd : decode d p = .error .payloadLength) :
    step s = .refused .payloadLengthMismatch := by
  simp only [step, acceptInput, hs, hd]

/-- Every command answers a next state. -/
theorem exec_next (i : Instr) (s : State) : ∃ t, exec i s = .next t := ⟨_, exec_eq i s⟩

/-! ## Illegal descriptors -/

/-- Settles O5: no row's upper half, written over RSV, OP and V; and the step on an illegal descriptor. -/
theorem illegalDescriptors : Obligations.IllegalDescriptors := by
  intro d p
  have hd := d.isLt
  refine ⟨decode_eq_illegalDescriptor_iff.trans ?_, fun h _ _ hs => step_of_decode_illegalDescriptor hs h, rfl⟩
  omega

/-! ## Where the machine stops -/

theorem step_ne_fault (s : State) (f : Fault) : step s ≠ .fault f := nomatch f

/-- A step refuses exactly a transaction whose payload has another length than its SEED descriptor says. -/
theorem step_eq_refused_iff {s : State} {r : Refusal} :
    step s = .refused r ↔
      r = .payloadLengthMismatch ∧ ∃ d p rest, s.inputs = .command d p :: rest ∧ decode d p = .error .payloadLength := by
  constructor
  · intro h
    rcases step_cases s with ⟨-, e⟩ | ⟨rest, -, e⟩ | ⟨d, p, rest, i, -, -, e⟩ | ⟨d, p, rest, -, -, e⟩ |
      ⟨d, p, rest, hs, hd, e⟩ <;> rw [e] at h
    · cases h
    · cases h
    · obtain ⟨t, ht⟩ := exec_next i (s.consumed rest)
      cases ht.symm.trans h
    · cases h
    · cases h
      exact ⟨rfl, d, p, rest, hs, hd⟩
  · rintro ⟨rfl, d, p, rest, hs, hd⟩
    exact step_of_decode_payloadLength hs hd

/-- Settles O11: `Fault` has no constructor, and a wrong payload length is read off the descriptor's number. -/
theorem stepStopsOnlyOnWrongPayload : Obligations.StepStopsOnlyOnWrongPayload := by
  refine fun s => ⟨step_ne_fault s, fun r => ?_⟩
  simp only [step_eq_refused_iff, decode_eq_payloadLength_iff]

/-! ## The answer to a command -/

/-- The number of output bytes that a command asks for (R98). -/
def outputLengthOf : Instr → Nat
  | .seed _ => 0
  | .nextBytes n => n.toNat
  | .nextBytesNull _ => 0

/-- The status that ends a command (R98, R240). -/
def statusOf : Instr → Status
  | .seed _ => .ok
  | .nextBytes _ => .ok
  | .nextBytesNull _ => .invalidArgument

/-- A command ends with one response, of its length and its status. -/
theorem CommandEffect.response {i : Instr} {s t : State} (c : CommandEffect s i t) :
    ∃ out, t.responses = s.responses ++ [⟨out, statusOf i⟩] ∧ out.length = outputLengthOf i := by
  cases c with
  | emptySeed => exact ⟨[], rfl, rfl⟩
  | seed _ =>
    refine ⟨[], ?_, rfl⟩
    rw [State.respond_responses]
    exact congrArg (· ++ _) (absorb_seedOnly params _ s).responses
  | emptyRequest => exact ⟨[], rfl, rfl⟩
  | @request n _ =>
    refine ⟨(bytesOut params n.toNat (beginOutput params s)).1, ?_, bytesOut_length params _ _⟩
    rw [State.respond_responses, (bytesOut_outputOnly params _ _).responses, (beginOutput_ports params s).responses]
    rfl
  | absentBuffer _ => exact ⟨[], rfl, rfl⟩

/-- Settles O12: the step on a command, which answers as its row says, and the step on an illegal descriptor. -/
theorem everyCommandEndsWithOneStatus : Obligations.EveryCommandEndsWithOneStatus := by
  refine ⟨⟨rfl, rfl, rfl⟩, fun s d p rest hs hwf => ?_⟩
  have hlen : decode d p ≠ .error .payloadLength := of_decide_eq_true hwf
  cases hd : decode d p with
  | ok i =>
    obtain ⟨t, ht⟩ := exec_next i (s.consumed rest)
    obtain ⟨out, hresp, hout⟩ := (exec_effect ht).response
    refine ⟨t, ⟨out, statusOf i⟩, (step_of_decode_ok hs hd).trans ht, exec_inputs ht, hresp, ?_⟩
    cases i <;> simp [statusOf, hout, outputLengthOf]
  | error e =>
    cases e with
    | illegalDescriptor =>
      exact ⟨_, _, step_of_decode_illegalDescriptor hs hd, rfl, rfl, rfl, by simp [Exception.status],
        by simp [Exception.status]⟩
    | payloadLength => exact absurd hd hlen

end Sys2Proof.Machine
end

section
/-! PROOF of the statement of spec/30_encoding.md section 8: the order of words on the compression port (R99). -/

namespace Sys2Proof.Machine

theorem vector_getD_eq_toList {α : Type} {n : Nat} (v : Vector α n) (i : Nat) (x : α) : v.getD i x = v.toList.getD i x := by
  rw [getD_eq_getElem?, List.getD_eq_getElem?_getD, Vector.getElem?_toList]

/-- A word of a request is that word of the digest and the block in a row. -/
theorem request_word (r : CompressRequest) {i : Nat} (h : i < 21) :
    r.bits.extractLsb' (32 * (20 - i)) 32 = (r.digest.toList ++ r.block.toList).getD i 0 := by
  rw [CompressRequest.bits, BitVec.extractLsb'_cast]
  exact concatWords_word _ (n := 21) (by simp) h

/-- Settles O23: words 0 to 4 of a request are the digest's, words 5 to 20 the block's. -/
theorem compressPortOrder : Obligations.CompressPortOrder := by
  refine ⟨fun r i hi => ?_, fun r i hi => ?_, fun d i hi => ?_⟩
  · rw [request_word r (by omega), List.getD_append _ _ _ _ (by simpa using hi), vector_getD_eq_toList]
  · rw [show 15 - i = 20 - (5 + i) by omega, request_word r (by omega), List.getD_append_right _ _ _ _ (by simp),
      Vector.length_toList, Nat.add_sub_cancel_left, vector_getD_eq_toList]
  · rw [responseBits, BitVec.extractLsb'_cast, vector_getD_eq_toList]
    exact concatWords_word _ (n := 5) (by simp) hi

end Sys2Proof.Machine
end

section
/-! PROOF of the statement of spec/30_encoding.md section 9: the lines of the listing (R101). -/

namespace Sys2Proof.Machine

/-! ## The fields of a line -/

/-- What stands after a comment sign is in no field. -/
theorem fieldsFrom_comment (f line comment : List Char) : fieldsFrom f (line ++ ';' :: comment) = fieldsFrom f line := by
  induction line generalizing f with
  | nil => rfl
  | cons c cs ih => simp only [List.cons_append, fieldsFrom, ih]

/-- Characters without blank and comment sign, if any, are the one field of their line. -/
theorem fields_word {cs : List Char} (h : ∀ c ∈ cs, c ≠ ';' ∧ c ≠ ' ') :
    fieldsFrom [] cs = if cs = [] then [] else [cs] := by
  simpa using fieldsFrom_word cs [] h

theorem fields_seedLine (p : List Byte) :
    fieldsFrom [] (seedLine p) = ['s', 'e', 'e', 'd'] :: fieldsFrom [] (hexOfBytes p) := rfl

theorem fields_nextBytesLine (ds : List (Fin 10)) :
    fieldsFrom [] (nextBytesLine ds) =
      ['n', 'e', 'x', 't', 'b', 'y', 't', 'e', 's'] :: fieldsFrom [] (ds.map fun d => digitChar d.val) := rfl

/-! ## The operand of a line -/

/-- The hex digits of a payload give the SEED of that payload (R101), where a descriptor can spell it (R94). -/
theorem inputOfFields_seed {p : List Byte} (h : (Instr.seed p).wellFormed = true) :
    inputOfFields [['s', 'e', 'e', 'd'], hexOfBytes p] = some (.command (encodeDescriptor (.seed p)) p) := by
  rw [inputOfFields, hexBytes_hexOfBytes, Option.bind_some, inputOfInstr, if_pos h]
  rfl

theorem mem_decimalDigits {ds : List (Fin 10)} {c : Char} (h : c ∈ ds.map fun d => digitChar d.val) :
    c ≠ ';' ∧ c ≠ ' ' := by
  obtain ⟨d, -, rfl⟩ := List.mem_map.mp h
  exact (hexDigit_digitChar d.val (by omega)).2

/-- No decimal digits spell `null`. -/
theorem decimal_null : decimal ['n', 'u', 'l', 'l'] = none := rfl

/-- The descriptor of a present NEXTBYTES of `n` bytes (R93). -/
theorem encodeDescriptor_nextBytes {n : Nat} (h : n < 2 ^ 32) :
    encodeDescriptor (.nextBytes (BitVec.ofNat 32 n)) = BitVec.ofNat 64 (0x2800000000000000 + n) := by
  apply BitVec.eq_of_toNat_eq
  rw [Laws.DescriptorValue.nextBytes _ rfl, BitVec.toNat_ofNat, Nat.mod_eq_of_lt (by omega)]
  exact congrArg (_ + ·) ((BitVec.toNat_ofNat ..).trans (Nat.mod_eq_of_lt h))

/-- A decimal operand gives the NEXTBYTES of that many bytes (R93, R101). -/
theorem inputOfFields_nextBytes {cs : List Char} {n : Nat} (hcs : decimal cs = some n) (hn : n < 2 ^ 32) :
    inputOfFields [['n', 'e', 'x', 't', 'b', 'y', 't', 'e', 's'], cs] =
      some (.command (BitVec.ofNat 64 (0x2800000000000000 + n)) []) := by
  have notNull : cs ≠ ['n', 'u', 'l', 'l'] := by
    rintro rfl
    cases decimal_null.symm.trans hcs
  rw [inputOfFields, hcs, Option.bind_some, if_pos hn, HostInput.ofInstr, encodeDescriptor_nextBytes hn]
  · rfl
  · exact notNull

/-! ## The lines -/

theorem parseLine_seedLine {p : List Byte} (h : (Instr.seed p).wellFormed = true) :
    parseLine (seedLine p) = some (.command (encodeDescriptor (.seed p)) p) := by
  rw [parseLine, fields_seedLine, fields_word fun _ => mem_hexOfBytes]
  cases p with
  | nil => rfl
  | cons b bs => exact inputOfFields_seed h

theorem parseLine_nextBytesLine {ds : List (Fin 10)} (hne : ds ≠ []) (h : decimalValue ds < 2 ^ 32) :
    parseLine (nextBytesLine ds) = some (.command (BitVec.ofNat 64 (0x2800000000000000 + decimalValue ds)) []) := by
  rw [parseLine, fields_nextBytesLine, fields_word fun _ => mem_decimalDigits, if_neg (by simpa using hne)]
  exact inputOfFields_nextBytes (decimal_digits hne) h

/-- Settles O6: each form by the fields of its line and its operand; the four lines of the spec are read out. -/
theorem listingLines : Obligations.ListingLines :=
  ⟨fun _ => parseLine_seedLine, fun _ => parseLine_nextBytesLine,
    fun line comment => congrArg inputOfFields (fieldsFrom_comment [] line comment), rfl, rfl, rfl, rfl⟩

end Sys2Proof.Machine
end

section
/-! PROOF of the statements of spec/40_block_packer.md: APPEND inside one word (section 2), the words it writes (section 3),
the bytes it leaves and two of it in a row (section 4). Each speaks of the bytes as pushed one after another. -/

namespace Sys2Proof.Machine

theorem append_whole {n : Nat} (B : Vector Word n) (bs : List Byte) (cur : Nat) :
    append B bs 0 bs.length cur = pushBytes B bs cur := by
  rw [append_eq_push, List.drop_zero, Nat.sub_zero, List.take_length]

/-! ## The bytes after APPEND (R127, R129) -/

/-- The zero-lane condition of R127, from the lanes of the cursor's word to its byte addresses. -/
theorem zeroLanes_of_lanes {n : Nat} {B : Vector Word n} {c : Nat}
    (h : c % 4 ≠ 0 → ∀ j < 4, c % 4 ≤ j → lane (B.getD (c / 4) 0) j = 0) : ZeroLanes B c := by
  intro hc k hk hw
  rw [byteAt, hw]
  exact h hc (k % 4) (by omega) (by omega)

theorem getD_take_drop {l : List Byte} {a m i : Nat} (h : i < m) : ((l.drop a).take m).getD i 0 = l.getD (a + i) 0 := by
  rw [List.getD_eq_getElem?_getD, List.getElem?_take_of_lt h, List.getElem?_drop, List.getD_eq_getElem?_getD]

/-- Settles O18: the pushes leave zeros in the rest of the last word; where phase (c) did not run, that is still the
cursor's word, whose lanes were zero before. -/
theorem appendBytesAtCursor : Obligations.AppendBytesAtCursor := by
  intro nw B src first last cur hle hlast hfit hlanes
  obtain ⟨n, rfl⟩ := Nat.exists_eq_add_of_le hle
  rw [Nat.add_sub_cancel_left] at hfit ⊢
  have hz := zeroLanes_of_lanes hlanes
  have hlen : ((src.drop first).take n).length = n := by
    rw [List.length_take, List.length_drop]
    omega
  rw [append_eq_push, Nat.add_sub_cancel_left]
  refine ⟨by rw [pushBytes_cursor, hlen], fun k _ => ?_⟩
  rw [byteAt_pushBytes _ B cur k (by rwa [hlen]) hz, hlen]
  by_cases written : cur ≤ k ∧ k < cur + n
  · rw [if_pos written, if_pos written, getD_take_drop (by omega)]
  rw [if_neg written, if_neg written]
  by_cases rest : cur + n ≤ k ∧ k / 4 = (cur + n) / 4 ∧ (cur + n) % 4 ≠ 0
  · obtain ⟨after, lastWord, unaligned⟩ := rest
    rw [if_pos ⟨after, lastWord, unaligned⟩]
    by_cases phaseC : first < first + n ∧ (cur % 4 = 0 ∨ cur / 4 < (cur + n) / 4)
    · rw [if_pos ⟨after, lastWord, unaligned, phaseC⟩]
      rfl
    · rw [if_neg fun ⟨_, _, _, h⟩ => phaseC h]
      exact (hz (by omega) k (by omega) (by omega)).symm
  · rw [if_neg rest, if_neg fun ⟨after, lastWord, unaligned, _⟩ => rest ⟨after, lastWord, unaligned⟩]

/-- Settles O19: pushing `s` and then `t` is pushing `s ++ t`. -/
theorem appendTwiceIsAppendOnce : Obligations.AppendTwiceIsAppendOnce := by
  intro nw B s t cur
  rw [append_whole, append_whole, append_whole, pushBytes_append]

/-! ## The words that APPEND writes (R126) -/

theorem pushByte_getD_of_ne {n : Nat} (B : Vector Word n) {c i : Nat} (b : Byte) (h : c / 4 ≠ i) :
    (pushByte B c b).getD i 0 = B.getD i 0 := by
  rw [pushByte, getD_eq_getElem?, Vector.getElem?_setIfInBounds_ne h, ← getD_eq_getElem?]

/-- Pushes leave a word alone that holds none of the pushed bytes' addresses. -/
theorem pushBytes_getD_of_ne {n : Nat} (bs : List Byte) (B : Vector Word n) (c i : Nat)
    (h : ∀ a, c ≤ a → a < c + bs.length → a / 4 ≠ i) : (pushBytes B bs c).1.getD i 0 = B.getD i 0 := by
  induction bs generalizing B c with
  | nil => rfl
  | cons b bs ih =>
    rw [List.length_cons] at h
    rw [pushBytes, ih _ _ fun a h1 h2 => h a (by omega) (by omega),
      pushByte_getD_of_ne B b (h c le_rfl (by omega))]

/-- Settles O20: no address of the bytes lies in a word outside the range. -/
theorem appendLeavesOtherWords : Obligations.AppendLeavesOtherWords := by
  intro nw B bs cur i h
  rw [append_whole]
  apply pushBytes_getD_of_ne
  intro a h1 h2
  rcases h with rfl | below | above
  · rw [List.length_nil] at h2
    omega
  · omega
  · omega

/-! ## APPEND inside one word (R125) -/

/-- Bytes pushed inside one word are packed into that word: into its old value, or into zero from lane 0 on. -/
theorem pushBytes_eq_packPartialWord {n : Nat} (B : Vector Word n) (x o : Nat) {v : List Byte} (hv : v ≠ [])
    (h : o + v.length ≤ 4) :
    pushBytes B v (4 * x + o) =
      (B.setIfInBounds x (packPartialWord (if o = 0 then 0 else B.getD x 0) o v), 4 * x + o + v.length) := by
  cases v with
  | nil => exact absurd rfl hv
  | cons b bs =>
    rw [List.length_cons] at h
    have hword : (4 * x + o) / 4 = x := by omega
    have hlane : (4 * x + o) % 4 = o := by omega
    have tail := pushBytes_singleton_tail B (o + 1) (4 * x) ((if o = 0 then 0 else B.getD x 0) ||| byteInLane b o) bs
      (by omega) (by omega) (by omega)
    rw [show 4 * x / 4 = x by omega] at tail
    rw [pushBytes, pushByte, hword, hlane, packPartialWord, Nat.add_assoc, tail, List.length_cons]
    congr 1
    omega

/-- Settles O21: the bytes stay in word `x`. -/
theorem partialWordIsPhaseAOrC : Obligations.PartialWordIsPhaseAOrC := by
  intro nw B x o v _ hv h _
  rw [append_whole, pushBytes_eq_packPartialWord B x o hv h]

end Sys2Proof.Machine
end

section
/-! SUPPORT. A command after an answer already given: absorbing, output and what is due before it read no response, so they
do the same, and that answer stays where it is (spec/30_encoding.md rule R98). -/

namespace Sys2Proof.Machine

/-- Other ports that differ by one answer at the end are an answer given. -/
theorem State.withPorts_eq_respond {s u : State} (hin : u.inputs = s.inputs) (hresp : u.responses = s.responses)
    (out : List Byte) (st : Status) :
    u.withPorts s.inputs (s.responses ++ [⟨out, st⟩]) u.entropyDraws = u.respond out st := by
  rw [← hin, ← hresp]
  rfl

theorem absorb_respond (P : Params) (bytes : List Byte) (s : State) (out : List Byte) (st : Status) :
    absorb P bytes (s.respond out st) = (absorb P bytes s).respond out st := by
  have a := absorb_seedOnly P bytes s
  rw [← State.withPorts_eq_respond a.inputs a.responses, a.entropyDraws]
  exact absorb_withPorts P bytes s _ _ _

theorem seedBytes_respond (P : Params) (p : List Byte) (s : State) (out : List Byte) (st : Status) :
    seedBytes P p (s.respond out st) = (seedBytes P p s).respond out st := by
  rw [seedBytes_eq, seedBytes_eq, absorb_respond]
  rfl

theorem beginOutput_respond (P : Params) (s : State) (out : List Byte) (st : Status) :
    beginOutput P (s.respond out st) = (beginOutput P s).respond out st := by
  have b := beginOutput_ports P s
  rw [← State.withPorts_eq_respond b.inputs b.responses]
  exact beginOutput_withPorts P s _ _

theorem bytesOut_respond (P : Params) (n : Nat) (s : State) (out : List Byte) (st : Status) :
    bytesOut P n (s.respond out st) = ((bytesOut P n s).1, (bytesOut P n s).2.respond out st) := by
  have o := bytesOut_outputOnly P n s
  rw [← State.withPorts_eq_respond o.inputs o.responses, o.entropyDraws]
  exact bytesOut_withPorts P n s _ _ _

end Sys2Proof.Machine
end

section
/-! PROOF of the statements of spec/41_seed_accumulator.md sections 1 and 2: what a SEED does to each register, the blocks
it completes, and every byte of the frame after it. -/

namespace Sys2Proof.Machine

/-- Settles O24: an empty SEED is its answer alone. -/
theorem emptySeedChangesNothing : Obligations.EmptySeedChangesNothing := ⟨fun _ => rfl, absorb_nil⟩

/-! ## SEED through ABSORB -/

/-- SEED with and without bytes (R145, R147): ABSORB, then the two session registers if there were bytes, then the answer. -/
theorem seedCommand_eq_absorb (P : Params) (p : List Byte) (s : State) :
    seedCommand P p s =
      ((absorb P p s).setEngine
        { (absorb P p s).engine with
          ocur := if p = [] then s.engine.ocur else 20
          es := if p = [] then s.engine.es else .seeded }).respond [] .ok := by
  by_cases hp : p = []
  · subst hp
    rw [absorb_nil]
    rfl
  · rw [seedCommand_of_ne_nil P hp, seedBytes_eq, if_neg hp, if_neg hp]

@[simp] theorem seedCommand_w (P : Params) (p : List Byte) (s : State) :
    (seedCommand P p s).engine.w = (absorb P p s).engine.w := by rw [seedCommand_eq_absorb]; rfl

@[simp] theorem seedCommand_bc (P : Params) (p : List Byte) (s : State) :
    (seedCommand P p s).engine.bc = (absorb P p s).engine.bc := by rw [seedCommand_eq_absorb]; rfl

@[simp] theorem seedCommand_h (P : Params) (p : List Byte) (s : State) :
    (seedCommand P p s).engine.h = (absorb P p s).engine.h := by rw [seedCommand_eq_absorb]; rfl

@[simp] theorem seedCommand_sl (P : Params) (p : List Byte) (s : State) :
    (seedCommand P p s).engine.sl = (absorb P p s).engine.sl := by rw [seedCommand_eq_absorb]; rfl

@[simp] theorem seedCommand_compressRequests (P : Params) (p : List Byte) (s : State) :
    (seedCommand P p s).compressRequests = (absorb P p s).compressRequests := by rw [seedCommand_eq_absorb]; rfl

/-- Settles O25: SL by ABSORB's count, the rest by what ABSORB leaves alone. -/
theorem seedStateChange : Obligations.SeedStateChange := by
  intro s p hp
  have a := absorb_seedOnly params p s
  refine ⟨(seedBytes params p s).respond [] .ok, congrArg _ (seedCommand_of_ne_nil params hp s), ?_, rfl, rfl,
    congrArg (· ++ _) a.responses, a.ctr, a.oc, a.hs, a.sbc, a.layout, a.t, a.g, a.inputs, a.entropyDraws⟩
  calc (absorb params p s).engine.sl.toNat
      = (s.engine.sl + BitVec.ofNat 64 p.length).toNat := by rw [absorb_sl]
    _ = (s.engine.sl.toNat + p.length) % 2 ^ 64 := by rw [BitVec.toNat_add, BitVec.toNat_ofNat, Nat.add_mod_mod]

/-! ## The blocks completed (R141, R142) -/

theorem absorb_compressRequests_length (P : Params) (bytes : List Byte) (s : State) :
    (absorb P bytes s).compressRequests.length =
      s.compressRequests.length + (s.engine.bc.toNat + bytes.length) / 64 := by
  rw [absorb_eq_bytes]
  exact (absorbBytes_counts P bytes s).2

/-- Bytes that leave the block open do not touch the digest (R22). -/
theorem absorb_h_of_open (P : Params) (bytes : List Byte) (s : State) (h : s.engine.bc.toNat + bytes.length < 64) :
    (absorb P bytes s).engine.h = s.engine.h := by
  by_cases hb : bytes = []
  · rw [hb, absorb_nil]
  · rw [absorb_eq_bytes, absorbBytes_within P bytes s hb (by omega)]
    simp only [if_neg (show s.engine.bc.toNat + bytes.length ≠ 64 by omega)]
    rfl

/-- Settles O26: SEED counts as ABSORB does. -/
theorem seedCountsBlocks : Obligations.SeedCountsBlocks := by
  intro s p
  refine ⟨seedCommand params p s, rfl, ?_, ?_, fun h => ?_⟩
  · rw [seedCommand_bc, absorb_bc]
  · rw [seedCommand_compressRequests, absorb_compressRequests_length]
  · rw [seedCommand_h, absorb_h_of_open params p s h]

/-! ## Every byte of the frame (R129, R140, R141) -/

/-- Byte `k` of a frame that held `w`, once `total` has gone through it from byte 0 on: the open block's bytes, zeros in the
rest of its last word, and above that the block before it, or `w` if there is none. -/
def frameByte (w : Block) (total : List Byte) (k : Nat) : Byte :=
  let blocks := total.length / 64
  let opened := total.length % 64
  if k < opened then total.getD (64 * blocks + k) 0
  else if k / 4 = opened / 4 ∧ opened % 4 ≠ 0 then 0
  else if blocks = 0 then byteAt w k
  else total.getD (64 * (blocks - 1) + k) 0

/-- The valid bytes alone leave the frame as it is, if the free lanes of the open word are zero. -/
theorem frameByte_readBytes {w : Block} {c : Nat} (hc : c < 64) (hz : ZeroLanes w c) (k : Nat) :
    frameByte w (readBytes w 0 c) k = byteAt w k := by
  simp only [frameByte, readBytes_length, Nat.mod_eq_of_lt hc, Nat.div_eq_of_lt hc, ↓reduceIte]
  by_cases valid : k < c
  · rw [if_pos valid, Nat.mul_zero, Nat.zero_add, readBytes_getD w valid, Nat.zero_add]
  · rw [if_neg valid]
    split_ifs with rest
    · obtain ⟨word, midword⟩ := rest
      exact (hz midword k (by omega) word).symm
    · rfl

/-- One byte more goes to the next free place and clears the lanes after it in its word; a block that it completes stays
in the frame. -/
theorem frameByte_concat (w : Block) (total : List Byte) (b : Byte) {k : Nat} (hk : k < 64) :
    frameByte w (total ++ [b]) k =
      if k = total.length % 64 then b
      else if total.length % 64 < k ∧ k / 4 = total.length % 64 / 4 then 0
      else frameByte w total k := by
  have old : ∀ i < total.length, (total ++ [b]).getD i 0 = total.getD i 0 := fun i hi => List.getD_append _ _ _ _ hi
  have new : (total ++ [b]).getD total.length 0 = b := by simp
  have hlen : (total ++ [b]).length = total.length + 1 := by simp
  have hsplit := Nat.div_add_mod total.length 64
  simp only [frameByte, hlen]
  by_cases full : total.length % 64 = 63
  · have hblocks : (total.length + 1) / 64 = total.length / 64 + 1 := by omega
    have hopened : (total.length + 1) % 64 = 0 := by omega
    rw [hblocks, hopened, if_neg (by omega), if_neg (by omega), if_neg (by omega), Nat.add_sub_cancel]
    by_cases here : k = total.length % 64
    · rw [if_pos here, here, hsplit, new]
    · rw [if_neg here, if_neg (by omega), if_pos (by omega), old _ (by omega)]
  · have hblocks : (total.length + 1) / 64 = total.length / 64 := by omega
    have hopened : (total.length + 1) % 64 = total.length % 64 + 1 := by omega
    rw [hblocks, hopened]
    rcases Nat.lt_trichotomy k (total.length % 64) with below | here | above
    · rw [if_pos (by omega), if_neg (by omega), if_neg (by omega), if_pos below, old _ (by omega)]
    · rw [if_pos (by omega), if_pos here, here, hsplit, new]
    · have rest : (k / 4 = (total.length % 64 + 1) / 4 ∧ (total.length % 64 + 1) % 4 ≠ 0) ↔
          k / 4 = total.length % 64 / 4 := by omega
      rw [if_neg (show ¬k < total.length % 64 + 1 by omega), if_neg (show ¬k = total.length % 64 by omega),
        if_neg (show ¬k < total.length % 64 by omega)]
      by_cases word : k / 4 = total.length % 64 / 4
      · rw [if_pos (rest.mpr word), if_pos ⟨above, word⟩]
      · simp only [rest, word, false_and, and_false, ↓reduceIte]
        by_cases none : total.length / 64 = 0
        · rw [if_pos none, if_pos none]
        · rw [if_neg none, if_neg none, old _ (by omega)]

theorem absorbByte_w (P : Params) (s : State) (b : Byte) :
    (absorbByte P s b).engine.w = pushByte s.engine.w s.engine.bc.toNat b := by
  by_cases h : s.engine.bc.toNat = 63
  · rw [absorbByte_full P s b h]
    rfl
  · rw [absorbByte_open P s b h]
    rfl

/-- The frame after bytes absorbed, over the valid bytes and those absorbed; by induction on the last byte. -/
theorem byteAt_absorbBytes (P : Params) (bs : List Byte) (s : State) (hz : ZeroLanes s.engine.w s.engine.bc.toNat)
    {k : Nat} (hk : k < 64) :
    byteAt (bs.foldl (absorbByte P) s).engine.w k =
      frameByte s.engine.w (readBytes s.engine.w 0 s.engine.bc.toNat ++ bs) k := by
  induction bs using List.reverseRecOn with
  | nil =>
    rw [List.append_nil]
    exact (frameByte_readBytes s.engine.bc.isLt hz k).symm
  | append_singleton bs b ih =>
    have a := absorbBytes_spec P bs s hz
    have hbc := (bs.foldl (absorbByte P) s).engine.bc.isLt
    rw [List.foldl_append, List.foldl_cons, List.foldl_nil, absorbByte_w, byteAt_pushByte _ _ b k (by omega) a.lanes, a.bc,
      ih, ← List.append_assoc, frameByte_concat _ _ b hk]
    rfl

/-- Settles O27: a SEED leaves the frame that its bytes, absorbed one by one, leave. -/
theorem seedFrameBytes : Obligations.SeedFrameBytes := by
  intro s p hz
  refine ⟨seedCommand params p s, rfl, fun k hk => ?_⟩
  rw [seedCommand_w, absorb_eq_bytes]
  exact byteAt_absorbBytes params p s ((freeLanesZero_iff _).mp hz) hk

/-- A SEED on the seed registers, with and without bytes. -/
theorem seedCommand_spec (P : Params) (p : List Byte) {s : State} (hz : s.engine.FreeLanesZero) :
    AbsorbsTo P (readBytes s.engine.w 0 s.engine.bc.toNat ++ p) s (seedCommand P p s) := by
  have a := absorb_spec P p s ((freeLanesZero_iff _).mp hz)
  rw [seedCommand_eq_absorb]
  exact ⟨a.h, a.requests, a.bc, a.bytes, a.lanes⟩

/-- Settles O28: what ABSORB's bytes leave, by `absorbBytes_spec`'s induction over them. -/
theorem seedFoldsWholeBlocks : Obligations.SeedFoldsWholeBlocks := by
  intro P s p hz
  have a := seedCommand_spec P p hz
  exact ⟨a.h, a.requests, a.bytes, (freeLanesZero_iff _).mpr a.lanes⟩

end Sys2Proof.Machine
end

section
/-! PROOF of the statements of spec/41_seed_accumulator.md section 3: seed accumulation (R148), and the seed registers as
the fold of everything absorbed (R149, R150). -/

namespace Sys2Proof.Machine

/-! ## Two SEEDs in a row -/

/-- The second SEED finds the carry dropped and ES Seeded already, which ABSORB neither reads nor writes. -/
theorem seedBytes_append (P : Params) (a b : List Byte) (s : State) :
    seedBytes P b (seedBytes P a s) = seedBytes P (a ++ b) s := by
  rw [seedBytes_eq P a, seedBytes_eq P b, absorb_dropCarry, ← absorb_append, seedBytes_eq]
  rfl

/-- A SEED after an answer OK without output. -/
theorem seedCommand_respond_ok (P : Params) (p : List Byte) (s : State) :
    seedCommand P p (s.respond [] .ok) = (seedCommand P p s).respond [] .ok := by
  by_cases hp : p = []
  · rw [hp, seedCommand_nil, seedCommand_nil]
  · rw [seedCommand_of_ne_nil P hp, seedCommand_of_ne_nil P hp, seedBytes_respond]

/-- Two SEEDs are one SEED of all the bytes, up to the second answer (R148). -/
theorem seedCommand_append (P : Params) (a b : List Byte) (s : State) :
    seedCommand P b (seedCommand P a s) = (seedCommand P (a ++ b) s).respond [] .ok := by
  by_cases ha : a = []
  · rw [ha, seedCommand_nil, seedCommand_respond_ok, List.nil_append]
  by_cases hb : b = []
  · rw [hb, seedCommand_nil, List.append_nil]
  · have hab : a ++ b ≠ [] := List.append_ne_nil_of_left_ne_nil ha b
    rw [seedCommand_of_ne_nil P ha, seedCommand_of_ne_nil P hb, seedCommand_of_ne_nil P hab, seedBytes_respond,
      seedBytes_append]

/-- Settles O29: the two ways differ in the answers only. -/
theorem twoSeedsAreOne : Obligations.TwoSeedsAreOne := by
  intro P a b s
  rw [seedCommand_append]
  exact ⟨rfl, rfl, rfl⟩

/-! ## The seed registers as a fold (R149, R150) -/

theorem Engine.reset_holds (P : Params) : (Engine.reset P).Holds P [] := ⟨rfl, rfl, rfl, rfl⟩

/-- Holding a seed is a matter of H, BC, W and SL only. -/
theorem Engine.Holds.of_seedRegisters {P : Params} {seed : List Byte} {e f : Engine} (held : e.Holds P seed)
    (hh : f.h = e.h) (hbc : f.bc = e.bc) (hw : f.w = e.w) (hsl : f.sl = e.sl) : f.Holds P seed := by
  rwa [Engine.Holds, hh, hbc, hw, hsl]

/-- After the whole blocks of `seed`, folding those of what is left of it and `p` is folding those of `seed ++ p`. -/
theorem foldBlocks_seed_append (P : Params) (d : Digest) (seed p : List Byte) :
    foldBlocks P (((seed ++ p).drop (64 * (seed.length / 64))).length / 64) (foldBlocks P (seed.length / 64) d seed)
        ((seed ++ p).drop (64 * (seed.length / 64))) =
      foldBlocks P ((seed ++ p).length / 64) d (seed ++ p) := by
  have hlen : (seed ++ p).length = seed.length + p.length := List.length_append
  rw [← foldBlocks_append_left P _ d seed p (Nat.mul_div_le seed.length 64), ← foldBlocks_add, List.length_drop]
  congr 1
  omega

/-- SEED appends its payload to the seed held: the frame's valid bytes and the payload are `seed ++ p` without the blocks
folded before. -/
theorem seedCommand_holds (P : Params) {s : State} {seed : List Byte} (p : List Byte) (held : s.engine.Holds P seed)
    (hz : s.engine.FreeLanesZero) : (seedCommand P p s).engine.Holds P (seed ++ p) := by
  have a := seedCommand_spec P p hz
  obtain ⟨hh, -, hbytes, hsl⟩ := held
  rw [hbytes, ← List.drop_append_of_le_length (Nat.mul_div_le seed.length 64)] at a
  have hlen : (seed ++ p).length = seed.length + p.length := List.length_append
  refine ⟨?_, ?_, ?_, ?_⟩
  · rw [a.h, hh, foldBlocks_seed_append]
  · rw [a.bc, List.length_drop]
    omega
  · rw [a.bytes, List.drop_drop, List.length_drop]
    congr 1
    omega
  · rw [seedCommand_sl, absorb_sl, hsl, hlen, BitVec.ofNat_add]

/-- Once there is a seed, what comes before output leaves it alone: it draws no entropy. -/
theorem beginOutput_holds (P : Params) {s : State} {seed : List Byte} (held : s.engine.Holds P seed)
    (hes : s.engine.es ≠ .uninitialized) : (beginOutput P s).engine.Holds P seed := by
  cases h : s.engine.es with
  | uninitialized => exact absurd h hes
  | seeded =>
    rw [beginOutput_seeded P s h]
    exact held
  | expanding => rwa [beginOutput_expanding P s h]

/-- Output writes no seed register. -/
theorem nextBytesCommand_holds (P : Params) {s : State} {seed : List Byte} (present : Bool) (n : Nat)
    (held : s.engine.Holds P seed) (hes : s.engine.es ≠ .uninitialized) :
    (nextBytesCommand P present n s).engine.Holds P seed := by
  cases present with
  | false => exact held
  | true =>
    rcases Nat.eq_zero_or_pos n with hn | hn
    · rw [hn]
      exact held
    · have o := bytesOut_outputOnly P n (beginOutput P s)
      rw [nextBytes_pos P hn]
      exact (beginOutput_holds P held hes).of_seedRegisters o.h o.bc o.w o.sl

/-- Settles O30: reset holds no byte, SEED appends, output keeps. -/
theorem seedRegistersHoldTheSeed : Obligations.SeedRegistersHoldTheSeed := fun P =>
  ⟨Engine.reset_holds P, fun _ _ p held hz => seedCommand_holds P p held hz,
    fun _ _ present n held hes => nextBytesCommand_holds P present n held hes⟩

end Sys2Proof.Machine
end

section
/-! PROOF of property 7 of spec/95_test_vectors.md part 1: an empty command is one more answer, and no command reads the
answers. -/

namespace Sys2Proof.Machine

/-- What a command leads to is what it answers. -/
theorem CommandEffect.exec_eq_next {i : Instr} {s t : State} (c : CommandEffect s i t) : exec i s = .next t := by
  cases c with
  | emptySeed => rfl
  | seed hp => exact congrArg _ (seedCommand_of_ne_nil params hp s)
  | emptyRequest => rfl
  | request hn => exact congrArg _ (nextBytes_pos params (Nat.pos_of_ne_zero fun h0 => hn (BitVec.eq_of_toNat_eq h0)) s)
  | absentBuffer _ => rfl

/-- An answer slipped in before the one that ends a command. -/
theorem State.respond_respond {s u : State} (h : u.responses = s.responses) (out out' : List Byte) (st st' : Status) :
    (u.respond out st).respond out' st' =
      { u.respond out' st' with responses := s.responses ++ [⟨out, st⟩, ⟨out', st'⟩] } := by
  simp [State.respond, h]

/-- A command that ends by answering keeps its place after an answer given before it. -/
theorem CommandEffect.answerAfter {i : Instr} {s u : State} {out out' : List Byte} {st st' : Status}
    (h : u.responses = s.responses) (c : CommandEffect (s.respond out st) i ((u.respond out st).respond out' st')) :
    ∃ r, (u.respond out' st').responses = s.responses ++ [r] ∧
      CommandEffect (s.respond out st) i { u.respond out' st' with responses := s.responses ++ [⟨out, st⟩, r] } :=
  ⟨⟨out', st'⟩, congrArg (· ++ _) h, State.respond_respond h out out' st st' ▸ c⟩

/-- After an answer given, a command does what it would have done without it, and gives the same answer after that one. -/
theorem CommandEffect.after_respond {i : Instr} {s v : State} (c : CommandEffect s i v) (out : List Byte) (st : Status) :
    ∃ r, v.responses = s.responses ++ [r] ∧
      CommandEffect (s.respond out st) i { v with responses := s.responses ++ [⟨out, st⟩, r] } := by
  cases c with
  | emptySeed => exact answerAfter rfl .emptySeed
  | @seed p hp =>
    have c := CommandEffect.seed (s := s.respond out st) hp
    rw [seedBytes_respond] at c
    exact c.answerAfter (absorb_seedOnly params p s).responses
  | emptyRequest => exact answerAfter rfl .emptyRequest
  | @request n hn =>
    have c := CommandEffect.request (s := s.respond out st) hn
    rw [beginOutput_respond, bytesOut_respond] at c
    exact c.answerAfter ((bytesOut_outputOnly params _ _).responses.trans (beginOutput_ports params s).responses)
  | absentBuffer n => exact answerAfter (u := s) rfl (.absentBuffer n)

/-- Settles O39: either empty command is an answer OK and nothing else. -/
theorem emptyCommandsAreInvisible : Obligations.EmptyCommandsAreInvisible := by
  intro s e i he
  have empty : exec e s = .next (s.respond [] .ok) := by
    rcases he with rfl | rfl
    · exact CommandEffect.emptySeed.exec_eq_next
    · exact CommandEffect.emptyRequest.exec_eq_next
  obtain ⟨v, hv⟩ := exec_next i s
  obtain ⟨r, hr, after⟩ := (exec_effect hv).after_respond [] .ok
  exact ⟨_, _, v, r, empty, after.exec_eq_next, hv, hr, rfl⟩

end Sys2Proof.Machine
end

section
/-! PROOF of the statements of spec/42_finalization.md section 3 and R167: the bit length, the snapshot, every byte of the
template and of the working frames that a round completes. -/

namespace Sys2Proof.Machine

/-- Settles O33: the shift by 3 and the sum each drop what is at and above 2^64. -/
theorem bitLengthWraps : Obligations.BitLengthWraps := by
  refine ⟨fun P sl => ?_, by decide, by decide, by decide⟩
  rw [lenBits, BitVec.toNat_add, BitVec.toNat_shiftLeft, Nat.shiftLeft_eq]
  omega

/-! ## The snapshot (R162, R163) -/

theorem layoutOf_eq (c : BitVec 6) : layoutOf c = if 48 ≤ c.toNat then .twoBlock else .singleBlock := by
  simp only [layoutOf, twoBlock_iff]

theorem lastFrameStart_layoutOf (c : BitVec 6) : lastFrameStart (layoutOf c) = if 48 ≤ c.toNat then 16 else 0 := by
  rw [layoutOf_eq]
  split_ifs <;> rfl

/-- Settles O31: output starts on the engine that FINALIZE leaves, and writes none of these registers. -/
theorem finalizationSnapshotsTheSeed : Obligations.FinalizationSnapshotsTheSeed := by
  refine ⟨fun P e => ⟨rfl, rfl, layoutOf_eq e.bc, rfl, rfl, rfl, rfl, rfl⟩, fun s n hes hn => ?_⟩
  have o := bytesOut_outputOnly params n.toNat (beginOutput params s)
  rw [beginOutput_seeded params s hes] at o
  refine ⟨_, (CommandEffect.request hn).exec_eq_next, ?_⟩
  rw [beginOutput_seeded params s hes]
  exact ⟨o.hs, o.sbc, o.layout.trans (layoutOf_eq _), o.t, o.es, o.w, o.bc, o.h, o.sl, o.inputs, o.entropyDraws⟩

/-! ## The template (R164, R166) -/

theorem placeTrailer_getD_hi (t : Work) (l : PaddingLayout) (v : DWord) :
    (placeTrailer t l v).getD (lastFrameStart l + 14) 0 = hiWord v := by
  have hl := lastFrameStart_le l
  rw [placeTrailer, getD_eq_getElem?, Vector.getElem?_setIfInBounds_ne (by omega),
    Vector.getElem?_setIfInBounds_self_of_lt (by omega), Option.getD_some]

theorem placeTrailer_getD_lo (t : Work) (l : PaddingLayout) (v : DWord) :
    (placeTrailer t l v).getD (lastFrameStart l + 15) 0 = loWord v := by
  have hl := lastFrameStart_le l
  rw [placeTrailer, getD_eq_getElem?, Vector.getElem?_setIfInBounds_self_of_lt (by omega), Option.getD_some]

/-- The address of the trailer: the last eight bytes of the last frame that is sent. -/
def trailerAddress (c : BitVec 6) : Nat := if 48 ≤ c.toNat then 120 else 56

theorem trailerAddress_eq (c : BitVec 6) : trailerAddress c = 4 * lastFrameStart (layoutOf c) + 56 := by
  rw [trailerAddress, lastFrameStart_layoutOf]
  split_ifs <;> rfl

/-- Counter and flag fit between the seed bytes and the trailer: what the layout is selected for (R163). -/
theorem byteCount_add_nine_le_trailerAddress (c : BitVec 6) : c.toNat + 9 ≤ trailerAddress c := by
  have hc := byteCount_lt c
  rw [trailerAddress]
  split_ifs <;> omega

theorem trailerAddress_mod_four (c : BitVec 6) : trailerAddress c % 4 = 0 := by
  rw [trailerAddress]
  split_ifs <;> rfl

/-- A byte of the template: seed bytes, the trailer, zeros. -/
theorem byteAt_finalize_t (P : Params) (e : Engine) (k : Nat) :
    byteAt (finalize P e).t k =
      if k < e.bc.toNat then byteAt e.w k
      else if trailerAddress e.bc ≤ k ∧ k < trailerAddress e.bc + 8 then
        (be64 (lenBits P e.sl)).getD (k - trailerAddress e.bc) 0
      else 0#8 := by
  have fits := byteCount_add_nine_le_trailerAddress e.bc
  rw [trailerAddress_eq] at fits ⊢
  rw [finalize_t, byteAt_placeTrailer, byteAt_template]
  by_cases seedByte : k < e.bc.toNat
  · rw [if_neg (by omega), if_pos seedByte, if_pos seedByte]
  · rw [if_neg seedByte, if_neg seedByte]

/-- Settles O32: the trailer is two words of the last frame, and the seed bytes end before it. -/
theorem templateBytes : Obligations.TemplateBytes := by
  intro P e
  have start := lastFrameStart_layoutOf e.bc
  refine ⟨⟨?_, ?_⟩, fun k _ => ?_⟩
  · exact start ▸ placeTrailer_getD_hi _ _ _
  · exact start ▸ placeTrailer_getD_lo _ _ _
  · rw [byteAt_finalize_t, trailerAddress_eq, start, Nat.mul_add, Nat.mul_add]
    rfl

/-! ## The working frames (R167, R194) -/

/-- The lanes after the seed bytes are zero in the template, whatever W holds there. -/
theorem zeroLanes_finalize_t (P : Params) (e : Engine) : ZeroLanes (finalize P e).t (finalize P e).sbc.toNat := by
  have fits := byteCount_add_nine_le_trailerAddress e.bc
  intro _ k hk hw
  rw [finalize_sbc] at hk hw
  rw [byteAt_finalize_t, if_neg (by omega), if_neg (by omega)]
  rfl

theorem be64_append_flag_getD (v : DWord) {i : Nat} (h : i < 9) :
    (be64 v ++ [0x80]).getD i 0 = if i < 8 then (be64 v).getD i 0 else 0x80 := by
  split_ifs with counter
  · exact List.getD_append _ _ _ _ counter
  · rw [show i = 8 by omega]
    rfl

/-- A byte of the working frames after a finalization: counter and flag go into the template's zeros. -/
theorem byteAt_roundFrames_finalize (P : Params) (e : Engine) (k : Nat) :
    byteAt (roundFrames (finalize P e)) k =
      if k < e.bc.toNat then byteAt e.w k
      else if k < e.bc.toNat + 8 then (be64 e.ctr).getD (k - e.bc.toNat) 0
      else if k = e.bc.toNat + 8 then 0x80
      else if k < trailerAddress e.bc then 0
      else if k < trailerAddress e.bc + 8 then (be64 (lenBits P e.sl)).getD (k - trailerAddress e.bc) 0
      else 0 := by
  have fits := byteCount_add_nine_le_trailerAddress e.bc
  have aligned := trailerAddress_mod_four e.bc
  rw [byteAt_roundFrames _ (zeroLanes_finalize_t P e), byteAt_finalize_t, finalize_sbc, finalize_ctr]
  by_cases seedByte : k < e.bc.toNat
  · rw [if_neg (by omega), if_neg (by omega), if_pos seedByte, if_pos seedByte]
  rw [if_neg seedByte, if_neg seedByte]
  by_cases written : k < e.bc.toNat + 9
  · rw [if_pos (by omega), be64_append_flag_getD _ (by omega)]
    by_cases counter : k < e.bc.toNat + 8
    · rw [if_pos (by omega), if_pos counter]
    · rw [if_neg (by omega), if_neg counter, if_pos (by omega)]
  rw [if_neg (by omega), if_neg (show ¬k < e.bc.toNat + 8 by omega), if_neg (show ¬k = e.bc.toNat + 8 by omega)]
  by_cases fill : k < trailerAddress e.bc
  · rw [if_pos fill, if_neg (show ¬(trailerAddress e.bc ≤ k ∧ _) by omega)]
    exact ite_self _
  · simp only [fill, Nat.le_of_not_lt fill, true_and, ↓reduceIte]
    exact if_neg (by omega)

/-- Settles O34: `trailerAddress` is the trailer's address in the layout that the byte count selects. -/
theorem workingFrameLayout : Obligations.WorkingFrameLayout :=
  fun P e k _ => byteAt_roundFrames_finalize P e k

end Sys2Proof.Machine
end

section
/-! PROOF of the statement of R171 (spec/42_finalization.md section 4) and of the output it gives: after the blocks already
compressed into H, the frames of a round are the rest of the padded message, byte for byte. -/

namespace Sys2Proof.Machine

/-! ## The padded message (R171) -/

/-- The number of zero bytes between the flag and the bit length. -/
def padZeros (m : List Byte) : Nat := (119 - m.length % 64) % 64

theorem padMessage_length (m : List Byte) : (padMessage m).length = m.length + 1 + padZeros m + 8 := by
  simp only [padMessage, List.length_append, List.length_singleton, List.length_replicate, be64_length, padZeros]

/-- A byte of the padded message, and zero past its end. -/
theorem padMessage_getD (m : List Byte) (i : Nat) :
    (padMessage m).getD i 0 =
      if i < m.length then m.getD i 0
      else if i = m.length then 0x80
      else if i < m.length + 1 + padZeros m then 0
      else if i < m.length + 1 + padZeros m + 8 then
        (be64 (BitVec.ofNat 64 (8 * m.length))).getD (i - (m.length + 1 + padZeros m)) 0
      else 0 := by
  have hlen : (m ++ [0x80]).length = m.length + 1 := by simp
  have hlen' : (m ++ [0x80] ++ List.replicate (padZeros m) (0 : Byte)).length = m.length + 1 + padZeros m := by
    rw [List.length_append, hlen, List.length_replicate]
  by_cases past : m.length + 1 + padZeros m + 8 ≤ i
  · rw [List.getD_eq_default _ _ (by rwa [padMessage_length]), if_neg (by omega), if_neg (by omega), if_neg (by omega),
      if_neg (by omega)]
  rw [padMessage, ← padZeros, if_pos (show i < m.length + 1 + padZeros m + 8 by omega)]
  by_cases body : i < m.length + 1 + padZeros m
  · rw [if_pos body, List.getD_append _ _ _ _ (by rwa [hlen'])]
    by_cases front : i < m.length + 1
    · rw [List.getD_append _ _ _ _ (by rwa [hlen])]
      by_cases message : i < m.length
      · rw [if_pos message, List.getD_append _ _ _ _ message]
      · rw [if_neg message, if_pos (by omega), show i = m.length by omega]
        simp
    · rw [List.getD_append_right _ _ _ _ (by rw [hlen]; omega), if_neg (by omega), if_neg (by omega), hlen,
        List.getD_replicate _ (by omega)]
  · rw [if_neg (show ¬i < m.length by omega), if_neg (show ¬i = m.length by omega), if_neg body,
      List.getD_append_right _ _ _ _ (by rw [hlen']; omega), hlen']

/-! ## The frames of a round as the rest of it -/

/-- The frames that a round sends end with the trailer. -/
theorem trailerAddress_add_eight (c : BitVec 6) :
    trailerAddress c + 8 = 64 * compressionsPerRound (layoutOf c) := by
  rw [trailerAddress, layoutOf_eq]
  split_ifs <;> rfl

/-- The fewest zero bytes of the padding rule are those up to the trailer of the layout selected (R163). -/
theorem padMessage_trailer {m : List Byte} {c : BitVec 6} {q : Nat} (h : m.length = 64 * q + c.toNat + 8) :
    m.length + 1 + padZeros m = 64 * q + trailerAddress c := by
  have hc := byteCount_lt c
  rw [padZeros, trailerAddress]
  split_ifs <;> omega

/-- With the bias 64 the trailer is the bit length of the seed and the eight counter bytes (R165). -/
theorem lenBits_eq_messageBits {P : Params} (hbias : P.lenBiasBits = 64) (n : Nat) :
    lenBits P (BitVec.ofNat 64 n) = BitVec.ofNat 64 (8 * (n + 8)) := by
  have h64 : P.lenBiasBits.toNat = 64 := by rw [hbias]; rfl
  apply BitVec.eq_of_toNat_eq
  rw [bitLengthWraps.1 P, h64, BitVec.toNat_ofNat, BitVec.toNat_ofNat]
  omega

/-- The frame's valid bytes are what follows the whole blocks of the seed. -/
theorem Engine.Holds.byteAt_w {P : Params} {seed : List Byte} {e : Engine} (held : e.Holds P seed) {k : Nat}
    (hk : k < e.bc.toNat) : byteAt e.w k = seed.getD (64 * (seed.length / 64) + k) 0 := by
  obtain ⟨-, -, hbytes, -⟩ := held
  rw [← Nat.zero_add k, ← readBytes_getD e.w hk, hbytes, Nat.zero_add]
  simp only [List.getD_eq_getElem?_getD, List.getElem?_drop]

/-- The working frames after a finalization are the padded message after the whole blocks of the seed, and zeros. -/
theorem byteAt_roundFrames_eq_padMessage {P : Params} {seed : List Byte} {e : Engine} (hbias : P.lenBiasBits = 64)
    (held : e.Holds P seed) (k : Nat) :
    byteAt (roundFrames (finalize P e)) k =
      (padMessage (seed ++ be64 e.ctr)).getD (64 * (seed.length / 64) + k) 0 := by
  have ⟨_, hbc, _, hsl⟩ := held
  have hlen : (seed ++ be64 e.ctr).length = seed.length + 8 := by rw [List.length_append, be64_length]
  have hsplit : seed.length = 64 * (seed.length / 64) + e.bc.toNat := by omega
  have htrailer := padMessage_trailer (m := seed ++ be64 e.ctr) (c := e.bc) (q := seed.length / 64) (by omega)
  have fits := byteCount_add_nine_le_trailerAddress e.bc
  rw [byteAt_roundFrames_finalize, padMessage_getD, htrailer, hsl, lenBits_eq_messageBits hbias, hlen]
  by_cases seedByte : k < e.bc.toNat
  · rw [if_pos seedByte, if_pos (by omega), held.byteAt_w seedByte, List.getD_append _ _ _ _ (by omega)]
  rw [if_neg seedByte]
  by_cases counter : k < e.bc.toNat + 8
  · rw [if_pos counter, if_pos (by omega), List.getD_append_right _ _ _ _ (by omega)]
    congr 1
    omega
  rw [if_neg counter, if_neg (show ¬_ < seed.length + 8 by omega)]
  by_cases flag : k = e.bc.toNat + 8
  · rw [if_pos flag, if_pos (by omega)]
  rw [if_neg flag, if_neg (show ¬_ = seed.length + 8 by omega)]
  simp only [Nat.add_assoc, Nat.add_lt_add_iff_left, Nat.add_sub_add_left]

/-- The chained compressions of a round are the fold over the bytes of its frames. -/
theorem chainDigest_eq_foldBlocks (P : Params) (l : PaddingLayout) (d : Digest) {g : Work} {bs : List Byte}
    (h : ∀ k, byteAt g k = bs.getD k 0) : chainDigest P l d g = foldBlocks P (compressionsPerRound l) d bs := by
  have first : blockOfBytes bs = frame1 g := blockOfBytes_eq fun k hk => by rw [byteAt_frame1 g hk, h]
  have second : blockOfBytes (bs.drop 64) = frame2 g := blockOfBytes_eq fun k hk => by
    rw [byteAt_frame2 g hk, h]
    simp only [List.getD_eq_getElem?_getD, List.getElem?_drop]
  cases l with
  | singleBlock => rw [chainDigest, compressionsPerRound, foldBlocks, foldBlocks, first]
  | twoBlock => rw [chainDigest, compressionsPerRound, foldBlocks, foldBlocks, foldBlocks, first, second]

/-- The fold over the padded message: the seed's whole blocks give H, and the frames of the round are the rest. -/
theorem chainDigest_roundFrames {P : Params} {seed : List Byte} {e : Engine} (hbias : P.lenBiasBits = 64)
    (held : e.Holds P seed) :
    chainDigest P (layoutOf e.bc) e.h (roundFrames (finalize P e)) =
      foldBlocks P ((padMessage (seed ++ be64 e.ctr)).length / 64) P.hInit (padMessage (seed ++ be64 e.ctr)) := by
  have ⟨hh, hbc, _, _⟩ := held
  have hlen : (seed ++ be64 e.ctr).length = 64 * (seed.length / 64) + e.bc.toNat + 8 := by
    rw [List.length_append, be64_length]
    omega
  have hblocks : (padMessage (seed ++ be64 e.ctr)).length / 64 =
      seed.length / 64 + compressionsPerRound (layoutOf e.bc) := by
    rw [padMessage_length, padMessage_trailer hlen, Nat.add_assoc, trailerAddress_add_eight]
    omega
  have hseed : foldBlocks P (seed.length / 64) P.hInit (padMessage (seed ++ be64 e.ctr)) = e.h := by
    simp only [padMessage, List.append_assoc]
    rw [foldBlocks_append_left P _ _ _ _ (Nat.mul_div_le seed.length 64), hh]
  rw [hblocks, foldBlocks_add, hseed]
  apply chainDigest_eq_foldBlocks
  intro k
  rw [byteAt_roundFrames_eq_padMessage hbias held]
  simp only [List.getD_eq_getElem?_getD, List.getElem?_drop]

/-- The round with counter `c` is that of the engine with `c` in CTR, which holds the same seed. -/
theorem roundBytes_finalize {P : Params} {seed : List Byte} {e : Engine} (hbias : P.lenBiasBits = 64)
    (held : e.Holds P seed) (c : DWord) : roundBytes P (finalize P e) c = hashMessage P (seed ++ be64 c) := by
  have held' : Engine.Holds P seed { e with ctr := c } := held
  have hdigest := chainDigest_roundFrames hbias held'
  unfold roundBytes hashMessage
  exact congrArg (fun d => (digestBytes d).toList) hdigest

/-- Settles O47. The bit length is taken modulo 2^64 on both sides, so the bound on the seed's length is not needed. -/
theorem roundIsTheHashOfSeedAndCounter : Obligations.RoundIsTheHashOfSeedAndCounter :=
  fun _ _ _ c hbias held _ => roundBytes_finalize hbias held c

/-! ## The output after a seed (R171, R201) -/

theorem roundStream_eq_hashStream {P : Params} {seed : List Byte} {e : Engine} (hbias : P.lenBiasBits = 64)
    (held : e.Holds P seed) (k : Nat) (c : DWord) :
    roundStream P (finalize P e) k c = hashStream P seed k c := by
  induction k generalizing c with
  | zero => rfl
  | succ k ih => rw [roundStream, hashStream, ih, roundBytes_finalize hbias held]

/-- The bytes of the first output after a seed: the carry is empty, so they are rounds from the counter on. -/
theorem bytesOut_finalize (P : Params) (n : Nat) {s : State} (hcarry : s.engine.ocur = 20) :
    (bytesOut P n (s.setEngine (finalize P s.engine))).1 =
      (roundStream P (finalize P s.engine) ((n + 19) / 20) s.engine.ctr).take n := by
  have hempty : (finalize P s.engine).undelivered = [] := by
    rw [Engine.undelivered, finalize_ocur, hcarry]
    exact List.drop_eq_nil_of_le (by simp)
  rw [bytesOut_bytes P n ((n + 19) / 20) _ (by omega), State.setEngine_engine, hempty, List.nil_append, finalize_ctr]

/-- Settles O48: output starts on the engine that FINALIZE leaves, each of its rounds a hash. -/
theorem outputIsTheHashStream : Obligations.OutputIsTheHashStream := by
  intro s seed n hinv hes held _ hn
  obtain ⟨-, -, hcarry, -, -⟩ := hinv
  have hbytes := bytesOut_finalize params n.toNat (hcarry (by rw [hes]; decide))
  rw [roundStream_eq_hashStream rfl held] at hbytes
  have o := bytesOut_outputOnly params n.toNat (s.setEngine (finalize params s.engine))
  refine ⟨_, (CommandEffect.request hn).exec_eq_next, ?_⟩
  rw [beginOutput_seeded params s hes, State.respond_responses, o.responses, hbytes]
  rfl

end Sys2Proof.Machine
end

section
/-! PROOF of the statement of R161 (spec/42_finalization.md section 2): output before any seed is output after a SEED of the
bytes drawn. -/

namespace Sys2Proof.Machine

/-! ## The draw as a seed -/

theorem drawnBytes_ne_nil (a : Vector Byte 20) : a.toList ≠ [] := List.ne_nil_of_length_pos (by simp)

/-- What comes before output without a seed is what comes before it after a SEED of the drawn bytes, the draw aside:
FINALIZE sets ES, and the carry that SEED drops was empty. -/
theorem beginOutput_selfSeed (P : Params) {s : State} {a : Vector Byte 20} (ha : a = Config.entropyAnswer s.entropyDraws)
    (hes : s.engine.es = .uninitialized) (hcarry : s.engine.ocur = 20) :
    beginOutput P s =
      (beginOutput P (seedBytes P a.toList s)).withPorts s.inputs s.responses (s.entropyDraws + 1) := by
  have hself : selfSeed P s = (absorb P a.toList s).withPorts s.inputs s.responses (s.entropyDraws + 1) :=
    ha ▸ absorb_withPorts P _ s s.inputs s.responses (s.entropyDraws + 1)
  have hocur := (absorb_seedOnly P a.toList s).ocur.trans hcarry
  rw [beginOutput_uninitialized P s hes, beginOutput_seeded P _ (seedBytes_es P _ s), hself, seedBytes_eq]
  simp only [State.setEngine, State.withPorts, finalize, hocur]

/-- The whole command: a request before any seed leaves the registers and the compression requests of a SEED of the drawn
bytes and the same request, counts one draw, and gives the answer of that request only. -/
theorem nextBytesCommand_selfSeed (P : Params) {len : Nat} (hlen : 0 < len) {s : State} {a : Vector Byte 20}
    (ha : a = Config.entropyAnswer s.entropyDraws) (hes : s.engine.es = .uninitialized) (hcarry : s.engine.ocur = 20) :
    ∃ r, (nextBytesCommand P true len (seedCommand P a.toList s)).responses = s.responses ++ [⟨[], .ok⟩, r] ∧
      nextBytesCommand P true len s =
        (nextBytesCommand P true len (seedCommand P a.toList s)).withPorts s.inputs (s.responses ++ [r])
          (s.entropyDraws + 1) := by
  have hresponses := ((bytesOut_outputOnly P len (beginOutput P (seedBytes P a.toList s))).responses.trans
    (beginOutput_ports P _).responses).trans (absorb_seedOnly P a.toList s).responses
  rw [nextBytes_pos P hlen, nextBytes_pos P hlen, seedCommand_of_ne_nil P (drawnBytes_ne_nil a), beginOutput_respond,
    bytesOut_respond, beginOutput_selfSeed P ha hes hcarry, bytesOut_withPorts]
  refine ⟨_, ?_, rfl⟩
  rw [State.respond_responses, State.respond_responses, hresponses, List.append_assoc]
  rfl

/-! ## The seed registers that hold the draw -/

/-- A word is its four bytes. -/
theorem getD_eq_wordOfBytes {n : Nat} (B : Vector Word n) (j : Nat) :
    B.getD j 0 = wordOfBytes (byteAt B (4 * j)) (byteAt B (4 * j + 1)) (byteAt B (4 * j + 2)) (byteAt B (4 * j + 3)) := by
  have lanes (i : Nat) (hi : i < 4) : byteAt B (4 * j + i) = lane (B.getD j 0) i := by
    rw [byteAt, show (4 * j + i) / 4 = j by omega, show (4 * j + i) % 4 = i by omega]
  have lane0 : byteAt B (4 * j) = lane (B.getD j 0) 0 := lanes 0 (by omega)
  rw [lane0, lanes 1 (by omega), lanes 2 (by omega), lanes 3 (by omega), wordOfBytes_lanes]

/-- Twenty bytes absorbed since reset leave the first block open (R161). -/
theorem Engine.Holds.of_twentyBytes {P : Params} {a : Vector Byte 20} {e : Engine} (held : e.Holds P a.toList) :
    (∀ j (h : j < 5), e.w.getD j 0 = wordOfBytes a[4 * j] a[4 * j + 1] a[4 * j + 2] a[4 * j + 3]) ∧
      e.bc = 20 ∧ e.sl = 20 ∧ e.h = P.hInit := by
  have hlen : a.toList.length = 20 := Vector.length_toList
  have ⟨hh, hbc, _, hsl⟩ := held
  rw [hlen] at hh hbc hsl
  have hbyte {k : Nat} (hk : k < 20) : byteAt e.w k = a[k] := by
    rw [held.byteAt_w (by omega), hlen]
    simp [hk]
  refine ⟨fun j hj => ?_, BitVec.eq_of_toNat_eq hbc, hsl, hh⟩
  rw [getD_eq_wordOfBytes, hbyte, hbyte, hbyte, hbyte]

/-- Bytes that leave the block open ask nothing of the compression primitive (R142). -/
theorem AbsorbsTo.compressRequests_of_open {P : Params} {total : List Byte} {s t : State} (a : AbsorbsTo P total s t)
    (h : total.length < 64) : t.compressRequests = s.compressRequests := by
  rw [a.requests, Nat.div_eq_of_lt h]
  exact List.append_nil _

/-- Settles O36: the registers are those after the SEED and the request, which hold the drawn bytes as their seed. -/
theorem selfSeedIsASeedOfTheDraw : Obligations.SelfSeedIsASeedOfTheDraw := by
  intro s n hinv hes hn a
  have ha : a = Config.entropyAnswer s.entropyDraws := rfl
  clear_value a
  obtain ⟨-, hlanes, hcarry, -, hfresh⟩ := hinv
  have hreset := hfresh hes
  have hpos : 0 < n.toNat := Nat.pos_of_ne_zero fun h0 => hn (BitVec.eq_of_toNat_eq h0)
  obtain ⟨r, hresponses, hself⟩ :=
    nextBytesCommand_selfSeed params hpos ha hes (hcarry (by rw [hes]; decide))
  have held : (seedCommand params a.toList s).engine.Holds params a.toList :=
    seedCommand_holds params a.toList (hreset ▸ Engine.reset_holds params) hlanes
  have hes' : (seedCommand params a.toList s).engine.es ≠ .uninitialized := by
    rw [seedCommand_of_ne_nil params (drawnBytes_ne_nil a)]
    exact fun h => nomatch h
  obtain ⟨hw, hbc, hsl, hh⟩ := (nextBytesCommand_holds params true n.toNat held hes').of_twentyBytes
  have hopen := (seedCommand_spec params a.toList hlanes).compressRequests_of_open (by simp [hreset, Engine.reset])
  refine ⟨_, _, _, rfl, rfl, rfl, ?_⟩
  rw [hself]
  exact ⟨hw, hbc, hsl, hh, rfl, hopen, rfl, by simp [hresponses], rfl⟩

end Sys2Proof.Machine
end

section
/-! PROOF of the statements of R191 to R193 (spec/43_expansion.md sections 1 and 2): the absent buffer, the empty request,
and the carry, which goes out first. -/

namespace Sys2Proof.Machine

/-- Settles O37: an absent buffer is its answer alone; a SEED, with bytes or without, answers OK. -/
theorem absentBufferIsInvalidArgument : Obligations.AbsentBufferIsInvalidArgument := by
  refine ⟨fun n s => (CommandEffect.absentBuffer n).exec_eq_next, rfl, fun p s => ?_⟩
  obtain ⟨t, ht⟩ := exec_next (.seed p) s
  obtain ⟨out, hresponses, hlength⟩ := (exec_effect ht).response
  rw [List.length_eq_zero_iff.mp hlength] at hresponses
  exact ⟨t, ht, hresponses⟩

/-- Settles O38: an empty request is its answer alone. -/
theorem emptyRequestChangesNothing : Obligations.EmptyRequestChangesNothing :=
  fun _ => CommandEffect.emptyRequest.exec_eq_next

/-! ## The carry (R193) -/

/-- The number of bytes that DRAIN takes brings the cursor to 20 at most. -/
theorem cursor_add_drained_le (e : Engine) (len : Nat) : e.ocur.val + min (20 - e.ocur.val) len ≤ 20 := by
  have := e.ocur.isLt
  omega

theorem drain_bytes (len : Nat) (e : Engine) :
    (drain len e).1 = e.memRead .carry e.ocur.val (min (20 - e.ocur.val) len) := rfl

theorem drain_engine (len : Nat) (e : Engine) :
    (drain len e).2 = e.setOcur (e.ocur.val + min (20 - e.ocur.val) len) := rfl

/-- A request within a session (R190): nothing is due before its bytes. -/
theorem exec_nextBytes_expanding {s : State} {n : BitVec 32} (hes : s.engine.es = .expanding) (hn : n ≠ 0) :
    exec (.nextBytes n) s =
      .next ((bytesOut params n.toNat s).2.respond (bytesOut params n.toNat s).1 .ok) := by
  have c := CommandEffect.request (s := s) hn
  rw [beginOutput_expanding params s hes] at c
  exact c.exec_eq_next

/-- Output begins with the carry bytes that DRAIN takes. -/
theorem bytesOut_take_carry (P : Params) (n : Nat) (s : State) :
    (bytesOut P n s).1.take (min (20 - s.engine.ocur.val) n) =
      s.engine.memRead .carry s.engine.ocur.val (min (20 - s.engine.ocur.val) n) := by
  obtain ⟨k, hk⟩ := Nat.exists_eq_add_of_le (Nat.min_le_right (20 - s.engine.ocur.val) n)
  have hcarry := bytesOut_carry P _ s (Nat.min_le_left (20 - s.engine.ocur.val) n)
  have hlength := bytesOut_length P (min (20 - s.engine.ocur.val) n) s
  calc (bytesOut P n s).1.take (min (20 - s.engine.ocur.val) n)
      = (bytesOut P (min (20 - s.engine.ocur.val) n + k) s).1.take (min (20 - s.engine.ocur.val) n) := by rw [← hk]
    _ = (bytesOut P (min (20 - s.engine.ocur.val) n) s).1 := by rw [bytesOut_add, List.take_left' hlength]
    _ = s.engine.memRead .carry s.engine.ocur.val (min (20 - s.engine.ocur.val) n) := by rw [hcarry, memRead_carry]

/-- What comes before output leaves the carry cursor where it is (R35). -/
theorem beginOutput_ocur (P : Params) (s : State) : (beginOutput P s).engine.ocur = s.engine.ocur := by
  cases h : s.engine.es with
  | uninitialized =>
    rw [beginOutput_uninitialized P s h]
    exact (absorb_seedOnly P _ s.entropy.2).ocur
  | seeded =>
    rw [beginOutput_seeded P s h]
    rfl
  | expanding => rw [beginOutput_expanding P s h]

/-- Settles O42: DRAIN, a request that the carry serves, one that it begins, and the cursor that I-d gives outside a
session. -/
theorem carryGoesOutFirst : Obligations.CarryGoesOutFirst := by
  refine ⟨fun len e => ⟨drain_bytes len e, ?_, ?_⟩, fun s n hes hn hserved => ?_, fun s n hes hn => ?_,
    fun s hinv hes => ?_⟩
  · rw [drain_engine, Engine.setOcur_val _ (cursor_add_drained_le e len)]
  · rw [drain_engine]
    rfl
  · refine ⟨_, exec_nextBytes_expanding hes hn, ?_, ?_⟩ <;> rw [bytesOut_carry params _ s hserved]
    · rfl
    · exact Engine.setOcur_val _ (by omega)
  · refine ⟨_, ⟨(bytesOut params n.toNat s).1, .ok⟩, exec_nextBytes_expanding hes hn, ?_,
      bytesOut_take_carry params n.toNat s⟩
    rw [State.respond_responses, (bytesOut_outputOnly params _ s).responses]
  · obtain ⟨-, -, hcarry, -, -⟩ := hinv
    rw [beginOutput_ocur, hcarry hes]

end Sys2Proof.Machine
end

section
/-! PROOF of the statements of R195 to R198 (spec/43_expansion.md section 3): what a round asks of the compression primitive
and leaves in the carry, and what a pass of the round loop delivers. -/

namespace Sys2Proof.Machine

/-! ## The carry after a round (R195, R196) -/

/-- The second compression of a round is chained to the first where the layout has two blocks. -/
theorem chainDigest_eq_ite (P : Params) (l : PaddingLayout) (hs : Digest) (g : Work) :
    chainDigest P l hs g =
      if l = .twoBlock then P.compress (P.compress hs (frame1 g)) (frame2 g) else P.compress hs (frame1 g) := by
  cases l <;> rfl

theorem roundRequests_eq_cons (P : Params) (l : PaddingLayout) (hs : Digest) (g : Work) :
    roundRequests P l hs g =
      ⟨hs, frame1 g⟩ :: if l = .twoBlock then [⟨P.compress hs (frame1 g), frame2 g⟩] else [] := by
  cases l <;> rfl

theorem be32_getD (w : Word) {j : Nat} (hj : j < 4) : (be32 w).getD j 0 = lane w j := by
  interval_cases j <;> rfl

/-- Words in a row, big-endian: byte `4 i + j` is lane `j` of word `i` (R62). -/
theorem flatMap_be32_getD (ws : List Word) {i j : Nat} (hi : i < ws.length) (hj : j < 4) :
    (ws.flatMap be32).getD (4 * i + j) 0 = lane (ws.getD i 0) j := by
  induction ws generalizing i with
  | nil => exact absurd hi (Nat.not_lt_zero i)
  | cons w ws ih =>
    have hlen : (be32 w).length = 4 := rfl
    rw [List.flatMap_cons]
    cases i with
    | zero => rw [Nat.mul_zero, Nat.zero_add, List.getD_append _ _ _ _ hj, be32_getD w hj, List.getD_cons_zero]
    | succ i =>
      rw [List.getD_append_right _ _ _ _ (by omega), hlen, show 4 * (i + 1) + j - 4 = 4 * i + j by omega,
        ih (Nat.lt_of_succ_lt_succ hi), List.getD_cons_succ]

theorem digestBytes_getD (d : Digest) {i j : Nat} (hi : i < 5) (hj : j < 4) :
    (digestBytes d).getD (4 * i + j) 0 = lane (d.getD i 0) j := by
  rw [vector_getD_eq_toList, digestBytes_toList, flatMap_be32_getD _ (by simpa using hi) hj, vector_getD_eq_toList]

/-- Settles O40: the requests and the carry that `round_eq` gives, word by word. -/
theorem roundCompressesAndSerializes : Obligations.RoundCompressesAndSerializes := by
  intro P s g d1 d
  have hd : chainDigest P s.engine.layout s.engine.hs g = d := chainDigest_eq_ite P _ _ g
  have hoc : (round P s).engine.oc = digestBytes d := by
    rw [round_engine, Engine.afterRound_oc]
    exact congrArg digestBytes hd
  refine ⟨?_, ?_, fun i hi => ?_⟩
  · rw [round_compressRequests]
    exact congrArg _ (roundRequests_eq_cons P _ _ g)
  · rw [round_engine, Engine.afterRound_ocur]
  · rw [hoc]
    exact ⟨digestBytes_getD d hi (j := 0) (by omega), digestBytes_getD d hi (by omega), digestBytes_getD d hi (by omega),
      digestBytes_getD d hi (by omega)⟩

/-! ## A pass of the round loop (R197, R198) -/

/-- While bytes are wanted, the loop makes a pass and puts its bytes at the end of the output. -/
theorem roundLoop_succ (P : Params) {len : Nat} (fuel : Nat) {out : List Byte} (s : State) (h : out.length < len) :
    roundLoop P len (fuel + 1) out s =
      roundLoop P len fuel (out ++ (roundPass P (len - out.length) s).1) (roundPass P (len - out.length) s).2 := by
  simp only [roundLoop, if_pos h, writeOut_at_end]

theorem afterRound_oc_toList (P : Params) (e : Engine) : (e.afterRound P).oc.toList = roundBytes P e e.ctr := by
  rw [Engine.afterRound_oc]
  rfl

theorem roundPass_engine (P : Params) (want : Nat) (s : State) :
    (roundPass P want s).2.engine = ((s.engine.afterRound P).setOcur (min 20 want)).stepCounter := by
  rw [roundPass, State.setEngine_engine, round_engine]

theorem roundPass_bytes (P : Params) (want : Nat) (s : State) :
    (roundPass P want s).1 = (roundBytes P s.engine s.engine.ctr).take (min 20 want) := by
  rw [roundPass, memRead_carry, List.drop_zero, round_engine, afterRound_oc_toList]

theorem roundPass_oc (P : Params) (want : Nat) (s : State) :
    (roundPass P want s).2.engine.oc.toList = roundBytes P s.engine s.engine.ctr := by
  rw [roundPass_engine, Engine.stepCounter_oc, Engine.setOcur_oc, afterRound_oc_toList]

theorem roundPass_ocur (P : Params) (want : Nat) (s : State) :
    (roundPass P want s).2.engine.ocur.val = min 20 want := by
  rw [roundPass_engine, Engine.stepCounter_ocur, Engine.setOcur_val _ (by omega)]

/-- What a pass does not deliver is left in the carry: nothing where 20 bytes or more were wanted. -/
theorem roundPass_undelivered (P : Params) (want : Nat) (s : State) :
    (roundPass P want s).2.engine.undelivered = (roundBytes P s.engine s.engine.ctr).drop want := by
  rw [Engine.undelivered, roundPass_oc, roundPass_ocur]
  rcases Nat.le_total 20 want with h | h
  · rw [Nat.min_eq_left h, List.drop_eq_nil_of_le (by rw [roundBytes_length]),
      List.drop_eq_nil_of_le (by rwa [roundBytes_length])]
  · rw [Nat.min_eq_right h]

theorem roundPass_ctr (P : Params) (want : Nat) (s : State) :
    (roundPass P want s).2.engine.ctr.toNat = (s.engine.ctr.toNat + 1) % 2 ^ 64 := by
  rw [roundPass_engine, Engine.stepCounter_ctr, Engine.setOcur_ctr, Engine.afterRound_ctr, BitVec.toNat_add]
  rfl

/-- Settles O41: the pass appends the first bytes of the round to the output. -/
theorem roundSlicesAndCounts : Obligations.RoundSlicesAndCounts := by
  intro P len fuel out s hlt o m
  refine ⟨_, _, roundLoop_succ P fuel s hlt, roundPass_oc P _ s, ?_, List.take_left, fun k hk => ?_, roundPass_ocur P _ s,
    fun h => ?_, roundPass_undelivered P _ s, roundPass_ctr P _ s⟩
  · rw [List.length_append, roundPass_bytes, List.length_take, roundBytes_length]
    omega
  · rw [vector_getD_eq_toList, roundPass_oc, roundPass_bytes, List.getD_append_right _ _ _ _ (by omega),
      Nat.add_sub_cancel_left, List.getD_eq_getElem?_getD, List.getElem?_take_of_lt hk, List.getD_eq_getElem?_getD]
  · rw [roundPass_undelivered]
    exact List.drop_eq_nil_of_le (by rwa [roundBytes_length])

end Sys2Proof.Machine
end

section
/-! PROOF of the statements of R201 (spec/43_expansion.md section 4): the bytes of output within a session, and how the
host cuts its requests (property 2 of spec/95_test_vectors.md part 1). -/

namespace Sys2Proof.Machine

/-! ## The bytes of a session -/

/-- Settles O44: the rounds counted by R204 bring enough bytes. -/
theorem outputIsCarryThenRounds : Obligations.OutputIsCarryThenRounds := by
  intro P s n hes hn
  have enough : n ≤ 20 - s.engine.ocur.val + 20 * roundsFor n (20 - s.engine.ocur.val) := by
    unfold roundsFor
    omega
  rw [nextBytes_pos P (Nat.pos_of_ne_zero hn), beginOutput_expanding P s hes, State.respond_responses,
    (bytesOut_outputOnly P n s).responses, bytesOut_bytes P n _ s enough]

/-! ## Streaming -/

/-- What a present NEXTBYTES of `n` bytes delivers, and the state before it answers; a request for none does nothing, not
even what is due before output (R190, R192). -/
def delivered (P : Params) (n : Nat) (s : State) : List Byte × State :=
  if n = 0 then ([], s) else bytesOut P n (beginOutput P s)

theorem delivered_zero (P : Params) (s : State) : delivered P 0 s = ([], s) := rfl

theorem delivered_of_ne_zero (P : Params) {n : Nat} (hn : n ≠ 0) (s : State) :
    delivered P n s = bytesOut P n (beginOutput P s) := if_neg hn

theorem nextBytes_present (P : Params) (n : Nat) (s : State) :
    nextBytesCommand P true n s = (delivered P n s).2.respond (delivered P n s).1 .ok := by
  by_cases hn : n = 0
  · rw [hn, nextBytes_empty, delivered_zero]
  · rw [nextBytes_pos P (Nat.pos_of_ne_zero hn), delivered_of_ne_zero P hn]

theorem delivered_responses (P : Params) (n : Nat) (s : State) : (delivered P n s).2.responses = s.responses := by
  by_cases hn : n = 0
  · rw [hn, delivered_zero]
  · rw [delivered_of_ne_zero P hn]
    exact (bytesOut_outputOnly P n _).responses.trans (beginOutput_ports P s).responses

theorem delivered_respond (P : Params) (n : Nat) (s : State) (out : List Byte) (st : Status) :
    delivered P n (s.respond out st) = ((delivered P n s).1, (delivered P n s).2.respond out st) := by
  by_cases hn : n = 0
  · rw [hn, delivered_zero, delivered_zero]
  · rw [delivered_of_ne_zero P hn, delivered_of_ne_zero P hn, beginOutput_respond, bytesOut_respond]

/-- Bytes delivered leave the engine Expanding, so that nothing is due before the next ones. -/
theorem beginOutput_bytesOut (P : Params) (n : Nat) (s : State) :
    beginOutput P (bytesOut P n (beginOutput P s)).2 = (bytesOut P n (beginOutput P s)).2 :=
  beginOutput_expanding P _ ((bytesOut_outputOnly P n _).es.trans (beginOutput_es P s))

/-- A request cut in two. -/
theorem delivered_add (P : Params) (a b : Nat) (s : State) :
    delivered P (a + b) s =
      ((delivered P a s).1 ++ (delivered P b (delivered P a s).2).1, (delivered P b (delivered P a s).2).2) := by
  by_cases ha : a = 0
  · rw [ha, delivered_zero, Nat.zero_add, List.nil_append]
  by_cases hb : b = 0
  · rw [hb, delivered_zero, Nat.add_zero, List.append_nil]
  · rw [delivered_of_ne_zero P ha, delivered_of_ne_zero P hb, delivered_of_ne_zero P (by omega), beginOutput_bytesOut,
      bytesOut_add]

/-- Settles O45: the two requests deliver what the one does, and the first answer changes nothing for the second. -/
theorem requestsMayBeCutAnywhere : Obligations.RequestsMayBeCutAnywhere := by
  intro P a b s
  rw [nextBytes_present P a, nextBytes_present P b, nextBytes_present P (a + b), delivered_respond, delivered_add]
  refine ⟨(delivered P a s).1, (delivered P b (delivered P a s).2).1, ?_, ?_, ?_, rfl, rfl, rfl⟩
  · rw [State.respond_responses, delivered_responses]
  · rw [State.respond_responses, State.respond_responses, delivered_responses, delivered_responses, List.append_assoc]
    rfl
  · rw [State.respond_responses, delivered_responses, delivered_responses]

end Sys2Proof.Machine
end

section
/-! PROOF of the statements of R202 to R204 (spec/43_expansion.md section 4): the counts and the frame of output in every
EngineState, and the output after a SEED in a session. -/

namespace Sys2Proof.Machine

/-! ## Counts and frame (R199, R202, R204) -/

/-- Bytes of output have the effect of R204 on the engine they begin on, in a command from `s` that has taken no input and
requested no compression before them. -/
theorem bytesOut_outputEffect (P : Params) (n : Nat) {s u : State} (hinputs : u.inputs = s.inputs)
    (hrequests : u.compressRequests.length = s.compressRequests.length) :
    OutputEffect P n (20 - u.engine.ocur.val) u.engine s (bytesOut P n u).2 := by
  have c := bytesOut_counts P n u
  have l := bytesOut_lastRound P n u
  have o := bytesOut_outputOnly P n u
  exact ⟨c.ctr, c.ocur, hrequests ▸ c.requests, l.none, l.some, o.w, o.bc, o.h, o.sl, o.es, o.hs, o.sbc, o.layout, o.t,
    o.inputs.trans hinputs⟩

/-- What comes before output completes no block if the frame of an Uninitialized engine is empty (R161). -/
theorem beginOutput_compressRequests_length (P : Params) {s : State}
    (hempty : s.engine.es = .uninitialized → s.engine.bc = 0) :
    (beginOutput P s).compressRequests.length = s.compressRequests.length := by
  cases h : s.engine.es with
  | uninitialized =>
    have a := absorb_compressRequests_length P s.entropy.1.toList s.entropy.2
    rw [State.entropy_engine, hempty h, Vector.length_toList] at a
    rw [beginOutput_uninitialized P s h]
    exact a
  | seeded =>
    rw [beginOutput_seeded P s h]
    rfl
  | expanding => rw [beginOutput_expanding P s h]

/-- A request runs, draws if the engine is Uninitialized, and has the effect of R204 on the engine that output begins on. -/
theorem exec_nextBytes_outputEffect {s : State} {n : BitVec 32} (hn : n ≠ 0)
    (hempty : s.engine.es = .uninitialized → s.engine.bc = 0) :
    ∃ t, exec (.nextBytes n) s = .next t ∧
      OutputEffect params n.toNat (20 - s.engine.ocur.val) (beginOutput params s).engine s t ∧
      t.entropyDraws = s.entropyDraws + if s.engine.es = .uninitialized then 1 else 0 := by
  have b := beginOutput_ports params s
  have effect := bytesOut_outputEffect params n.toNat b.inputs (beginOutput_compressRequests_length params hempty)
  rw [beginOutput_ocur] at effect
  exact ⟨_, (CommandEffect.request hn).exec_eq_next, effect,
    (bytesOut_outputOnly params _ _).entropyDraws.trans b.entropyDraws⟩

/-- Settles O43: output begins on the engine as it stands or as FINALIZE leaves it, there with the empty carry of I-d. -/
theorem outputCountsAndFrame : Obligations.OutputCountsAndFrame := by
  refine fun s n hn => ⟨fun hes => ?_, fun hinv hes => ?_, fun hinv hes => ?_⟩
  · have effect := exec_nextBytes_outputEffect (s := s) hn (by rw [hes]; exact fun h => nomatch h)
    rwa [beginOutput_expanding params s hes, hes] at effect
  · obtain ⟨-, -, hcarry, -, -⟩ := hinv
    have effect := exec_nextBytes_outputEffect (s := s) hn (by rw [hes]; exact fun h => nomatch h)
    rwa [beginOutput_seeded params s hes, hcarry (by rw [hes]; decide), hes] at effect
  · obtain ⟨-, -, hcarry, -, hfresh⟩ := hinv
    have effect := exec_nextBytes_outputEffect (s := s) hn fun h => congrArg Engine.bc (hfresh h)
    rwa [beginOutput_uninitialized params s hes, hcarry (by rw [hes]; decide), hes] at effect

/-! ## A SEED in a session (R203) -/

theorem seedBytes_ctr (P : Params) (p : List Byte) (s : State) : (seedBytes P p s).engine.ctr = s.engine.ctr :=
  (absorb_seedOnly P p s).ctr

theorem seedBytes_responses (P : Params) (p : List Byte) (s : State) :
    (seedBytes P p s).responses = s.responses :=
  (absorb_seedOnly P p s).responses

/-- The rounds after a SEED are those of the grown seed: FINALIZE reads neither the carry cursor nor ES. -/
theorem roundStream_finalize_seedBytes (P : Params) (p : List Byte) (s : State) (k : Nat) (c : DWord) :
    roundStream P (finalize P (seedBytes P p s).engine) k c =
      roundStream P (finalize P (absorb P p s).engine) k c :=
  roundStream_congr P (e := finalize P (seedBytes P p s).engine) (f := finalize P (absorb P p s).engine) rfl rfl rfl rfl
    k c

/-- Settles O46: SEED leaves the carry empty and the counter as it stood, so the next output is rounds from there. -/
theorem reseedDropsTheCarry : Obligations.ReseedDropsTheCarry := by
  intro s p n _ hp hn
  refine ⟨_, _, (CommandEffect.seed hp).exec_eq_next, (CommandEffect.request hn).exec_eq_next, ?_⟩
  have b := beginOutput_ports params (seedBytes params p s)
  have o := bytesOut_outputOnly params n.toNat (beginOutput params (seedBytes params p s))
  rw [beginOutput_respond, bytesOut_respond, State.respond_responses, State.respond_responses, o.responses, b.responses,
    seedBytes_responses, beginOutput_seeded params _ (seedBytes_es params p s),
    bytesOut_finalize params _ (seedBytes_ocur params p s), roundStream_finalize_seedBytes, seedBytes_ctr,
    List.append_assoc]
  rfl

end Sys2Proof.Machine
end

section
/-! PROOF of the statement of R205 (spec/43_expansion.md section 4): the counter and the flag byte go into the words from
the byte count's on, whatever their lanes hold. The words are compared lane by lane. -/

namespace Sys2Proof.Machine

/-! ## Pushes over any lanes -/

/-- A byte after one push inside the buffer: ORed in at the cursor, into a word that is zero if the push starts it. -/
theorem byteAt_pushByte_or {n : Nat} (B : Vector Word n) {c : Nat} (b : Byte) (k : Nat) (h : c < 4 * n) :
    byteAt (pushByte B c b) k =
      (if c % 4 = 0 ∧ k / 4 = c / 4 then 0 else byteAt B k) ||| (if k = c then b else 0) := by
  rw [pushByte, byteAt_setIfInBounds]
  by_cases word : k / 4 = c / 4
  · rw [if_pos ⟨word, by omega⟩, lane_or, lane_byteInLane b (by omega) (by omega)]
    simp only [word, and_true, show k % 4 = c % 4 ↔ k = c by omega]
    congr 1
    by_cases fresh : c % 4 = 0
    · rw [if_pos fresh, if_pos fresh]
      exact lane_zero _
    · rw [if_neg fresh, if_neg fresh, byteAt, word]
  · rw [if_neg (fun w => word w.1), if_neg (fun w => word w.2), if_neg (by rintro rfl; exact word rfl)]
    exact BitVec.or_zero.symm

/-- A byte of a sequence put at address `c` is its first byte or one of the rest put at the next address. -/
theorem getD_cons_at (b : Byte) (bs : List Byte) (c k : Nat) :
    (if c ≤ k then (b :: bs).getD (k - c) 0 else 0) =
      (if k = c then b else 0) ||| (if c + 1 ≤ k then bs.getD (k - (c + 1)) 0 else 0) := by
  rcases Nat.lt_trichotomy k c with below | rfl | above
  · rw [if_neg (by omega), if_neg (by omega), if_neg (by omega)]
    rfl
  · rw [if_pos le_rfl, if_pos rfl, if_neg (by omega), Nat.sub_self, List.getD_cons_zero]
    exact BitVec.or_zero.symm
  · rw [if_pos (by omega), if_neg (by omega), if_pos (by omega), show k - c = k - (c + 1) + 1 by omega,
      List.getD_cons_succ]
    exact BitVec.zero_or.symm

/-- A byte after pushes that fit, over any lanes: the bytes are ORed in from the cursor on, into words that are zero if the
pushes start them. -/
theorem byteAt_pushBytes_or {n : Nat} (bs : List Byte) (B : Vector Word n) (c k : Nat) (h : c + bs.length ≤ 4 * n) :
    byteAt (pushBytes B bs c).1 k =
      (if c ≤ 4 * (k / 4) ∧ 4 * (k / 4) < c + bs.length then 0 else byteAt B k) |||
        (if c ≤ k then bs.getD (k - c) 0 else 0) := by
  induction bs generalizing B c with
  | nil =>
    rw [List.length_nil, if_neg (by omega), List.getD_nil, ite_self]
    exact BitVec.or_zero.symm
  | cons b bs ih =>
    rw [List.length_cons] at h ⊢
    rw [pushBytes, ih _ _ (by omega), byteAt_pushByte_or B b k (by omega), getD_cons_at, ← BitVec.or_assoc]
    congr 1
    by_cases later : c + 1 ≤ 4 * (k / 4) ∧ 4 * (k / 4) < c + 1 + bs.length
    · rw [if_pos later, if_pos (by omega), if_neg (show ¬k = c by omega)]
      exact BitVec.or_zero.symm
    · have now : (c % 4 = 0 ∧ k / 4 = c / 4) ↔ (c ≤ 4 * (k / 4) ∧ 4 * (k / 4) < c + (bs.length + 1)) := by omega
      simp only [later, now, ↓reduceIte]

/-! ## The counter as words -/

/-- Word `w` of the counter behind `n` zero bytes, the first word at the most significant end. -/
def counterWord (v : DWord) (n w : Nat) : Word := BitVec.ofNat 32 (v.toNat * 2 ^ 32 / 2 ^ (64 + 8 * n - 32 * w))

theorem lane_ofNat (m : Nat) {j : Nat} (hj : j < 4) :
    lane (BitVec.ofNat 32 m) j = BitVec.ofNat 8 (m / 2 ^ (24 - 8 * j)) := by
  apply BitVec.eq_of_getLsbD_eq
  intro i hi
  have inside : 24 - 8 * j + i < 32 := by omega
  rw [lane, laneShift, BitVec.getLsbD_extractLsb', BitVec.getLsbD_ofNat, BitVec.getLsbD_ofNat, Nat.testBit_div_two_pow,
    Nat.add_comm]
  simp only [hi, Nat.add_comm i, inside, decide_true, Bool.true_and]

theorem be64_getD_eq_ofNat (v : DWord) {i : Nat} (hi : i < 8) :
    (be64 v).getD i 0 = BitVec.ofNat 8 (v.toNat / 2 ^ (56 - 8 * i)) := by
  apply BitVec.eq_of_toNat_eq
  rw [be64_getD v hi, BitVec.extractLsb'_toNat, Nat.shiftRight_eq_div_pow, BitVec.toNat_ofNat]

/-- The lanes of those words are the bytes of `BE64`, with zeros before and after them. -/
theorem lane_counterWord (v : DWord) {n w j : Nat} (hn : n < 4) (hw : w < 3) (hj : j < 4) :
    lane (counterWord v n w) j = if n ≤ 4 * w + j then (be64 v).getD (4 * w + j - n) 0 else 0 := by
  have hv := v.isLt
  rw [counterWord, lane_ofNat _ hj, Nat.div_div_eq_div_mul, ← pow_add]
  by_cases before : n ≤ 4 * w + j
  · rw [if_pos before]
    by_cases inside : 4 * w + j - n < 8
    · rw [be64_getD_eq_ofNat v inside, show 64 + 8 * n - 32 * w + (24 - 8 * j) = 56 - 8 * (4 * w + j - n) + 32 by omega,
        pow_add, Nat.mul_div_mul_right _ _ (by decide)]
    · obtain ⟨d, hd⟩ : ∃ d, 64 + 8 * n - 32 * w + (24 - 8 * j) + (d + 8) = 32 :=
        ⟨8 * (4 * w + j - n - 8), by omega⟩
      rw [List.getD_eq_default _ _ (by rw [be64_length]; omega),
        show 2 ^ 32 = 2 ^ (64 + 8 * n - 32 * w + (24 - 8 * j)) * 2 ^ (d + 8) by rw [← pow_add, hd],
        Nat.mul_left_comm, Nat.mul_div_cancel_left _ (by positivity), pow_add, ← Nat.mul_assoc]
      exact BitVec.eq_of_toNat_eq (by rw [BitVec.toNat_ofNat, Nat.mul_mod_left]; rfl)
  · rw [if_neg before, Nat.div_eq_of_lt]
    · rfl
    · calc v.toNat * 2 ^ 32 < 2 ^ 64 * 2 ^ 32 := by omega
        _ ≤ 2 ^ (64 + 8 * n - 32 * w + (24 - 8 * j)) := by
          rw [← pow_add]
          exact Nat.pow_le_pow_right (by omega) (by omega)

/-! ## The words of the working frames -/

theorem roundFrames_eq_push (e : Engine) :
    roundFrames e = (pushBytes e.t (be64 e.ctr ++ [0x80]) e.sbc.toNat).1 := by
  rw [pushBytes_append, roundFrames, append_eq_push, append_eq_push]
  rfl

theorem lane_getD {n : Nat} (B : Vector Word n) (i : Nat) {j : Nat} (hj : j < 4) :
    lane (B.getD i 0) j = byteAt B (4 * i + j) := by
  rw [byteAt, show (4 * i + j) / 4 = i by omega, show (4 * i + j) % 4 = j by omega]

/-- The eight counter bytes and the flag after them, past their end too. -/
theorem be64_append_flag_getD_or (v : DWord) (i : Nat) :
    (be64 v ++ [0x80]).getD i 0 = (be64 v).getD i 0 ||| (if i = 8 then 0x80 else 0) := by
  rcases Nat.lt_trichotomy i 8 with counter | rfl | past
  · rw [List.getD_append _ _ _ _ counter, if_neg (by omega)]
    exact BitVec.or_zero.symm
  · rw [be64_append_flag_getD v (by omega), if_neg (by omega), if_pos rfl,
      List.getD_eq_default _ _ (by rw [be64_length])]
    rfl
  · rw [List.getD_eq_default _ _ (by simp; omega), List.getD_eq_default _ _ (by rw [be64_length]; omega),
      if_neg (by omega)]
    rfl

/-- The three words that the counter and the flag byte go into: the first keeps its old lanes if it is begun, the last has
the flag. -/
theorem roundFrames_getD_counter (e : Engine) {w : Nat} (hw : w < 3) :
    (roundFrames e).getD (e.sbc.toNat / 4 + w) 0 =
      (if 0 < w ∨ e.sbc.toNat % 4 = 0 then 0 else e.t.getD (e.sbc.toNat / 4) 0) |||
        counterWord e.ctr (e.sbc.toNat % 4) w ||| (if w = 2 then byteInLane 0x80 (e.sbc.toNat % 4) else 0) := by
  have hsbc := byteCount_lt e.sbc
  have hlen : (be64 e.ctr ++ [0x80]).length = 9 := rfl
  apply word_ext_lanes
  intro j hj
  have zero : lane 0 j = 0 := lane_zero j
  have fresh : (e.sbc.toNat ≤ 4 * ((4 * (e.sbc.toNat / 4 + w) + j) / 4) ∧
      4 * ((4 * (e.sbc.toNat / 4 + w) + j) / 4) < e.sbc.toNat + 9) ↔ 0 < w ∨ e.sbc.toNat % 4 = 0 := by omega
  have reached : e.sbc.toNat ≤ 4 * (e.sbc.toNat / 4 + w) + j ↔ e.sbc.toNat % 4 ≤ 4 * w + j := by omega
  have index : 4 * (e.sbc.toNat / 4 + w) + j - e.sbc.toNat = 4 * w + j - e.sbc.toNat % 4 := by omega
  have flag : 4 * w + j - e.sbc.toNat % 4 = 8 ↔ w = 2 ∧ j = e.sbc.toNat % 4 := by omega
  rw [lane_getD _ _ hj, roundFrames_eq_push, byteAt_pushBytes_or _ _ _ _ (by omega), be64_append_flag_getD_or, lane_or,
    lane_or, lane_counterWord _ (by omega) hw hj, apply_ite (lane · j), apply_ite (lane · j), zero,
    lane_byteInLane _ (by omega) hj, BitVec.or_assoc, hlen]
  simp only [fresh, reached, index, flag]
  congr 1
  · refine ite_congr rfl (fun _ => rfl) fun old => ?_
    rw [lane_getD _ _ hj, show w = 0 by omega, Nat.add_zero]
  · by_cases present : e.sbc.toNat % 4 ≤ 4 * w + j
    · rw [if_pos present, if_pos present, ite_and]
      rfl
    · rw [if_neg present, if_neg present, if_neg (show ¬w = 2 by omega)]
      rfl

/-! ## The closed form (R205) -/

theorem counterWord_zero (v : DWord) (n : Nat) : counterWord v n 0 = BitVec.ofNat 32 (v.toNat / 2 ^ (32 + 8 * n)) := by
  rw [counterWord, show 64 + 8 * n - 32 * 0 = 32 + 8 * n + 32 by omega, pow_add 2 (32 + 8 * n) 32,
    Nat.mul_div_mul_right _ _ (by decide)]

theorem counterWord_one (v : DWord) (n : Nat) : counterWord v n 1 = BitVec.ofNat 32 (v.toNat / 2 ^ (8 * n)) := by
  rw [counterWord, show 64 + 8 * n - 32 * 1 = 8 * n + 32 by omega, pow_add, Nat.mul_div_mul_right _ _ (by decide)]

/-- The rest of the counter; where the byte count is aligned there is none. -/
theorem counterWord_two (v : DWord) {n : Nat} (hn : n < 4) :
    counterWord v n 2 = if n = 0 then 0 else BitVec.ofNat 32 (v.toNat * 2 ^ (32 - 8 * n)) := by
  have split : 2 ^ 32 = 2 ^ (32 - 8 * n) * 2 ^ (8 * n) := by rw [← pow_add, show 32 - 8 * n + 8 * n = 32 by omega]
  rw [counterWord, show 64 + 8 * n - 32 * 2 = 8 * n by omega]
  split_ifs with aligned
  · rw [aligned]
    exact BitVec.eq_of_toNat_eq (by simp)
  · rw [split, ← Nat.mul_assoc, Nat.mul_div_cancel _ (by positivity)]

theorem byteInLane_flag {n : Nat} (hn : n < 4) : byteInLane 0x80 n = BitVec.ofNat 32 (0x80 * 2 ^ (24 - 8 * n)) := by
  interval_cases n <;> rfl

/-- The counter and flag words are the only ones that a round changes in its copy of the template (R126). -/
theorem roundFrames_getD_of_ne (e : Engine) {i : Nat} (h0 : i ≠ e.sbc.toNat / 4) (h1 : i ≠ e.sbc.toNat / 4 + 1)
    (h2 : i ≠ e.sbc.toNat / 4 + 2) : (roundFrames e).getD i 0 = e.t.getD i 0 := by
  have hlen : (be64 e.ctr ++ [0x80]).length = 9 := rfl
  rw [roundFrames_eq_push]
  exact pushBytes_getD_of_ne _ _ _ _ fun a _ _ => by omega

/-- Settles O35: the three words, compared lane by lane, with each slice of the counter in R205's form. -/
theorem counterWordsClosedForm : Obligations.CounterWordsClosedForm := by
  intro e n x c
  have hn : n < 4 := Nat.mod_lt _ (by decide)
  have word0 := roundFrames_getD_counter e (w := 0) (by decide)
  have word1 := roundFrames_getD_counter e (w := 1) (by decide)
  have word2 := roundFrames_getD_counter e (w := 2) (by decide)
  rw [counterWord_zero] at word0
  rw [counterWord_one] at word1
  rw [counterWord_two _ hn, byteInLane_flag hn] at word2
  refine ⟨?_, ?_, ?_, fun i _ => roundFrames_getD_of_ne e⟩
  · simpa using word0
  · simpa using word1
  · simpa using word2

end Sys2Proof.Machine
end

section
/-! PROOF of the statements of spec/44_external_primitives.md: the check value of the compression primitive (R223), and when
the entropy source is asked (R224, R226). -/

namespace Sys2Proof.Machine

/-! ## The compression primitive -/

/-- Settles O49: the schedule and the 80 steps are run on the one block. -/
theorem compressionCheckValue : Obligations.CompressionCheckValue := by
  unfold Obligations.CompressionCheckValue
  decide +kernel

/-! ## The draws of one command (R224) -/

theorem seedBytes_entropyDraws (P : Params) (p : List Byte) (s : State) :
    (seedBytes P p s).entropyDraws = s.entropyDraws :=
  (absorb_seedOnly P p s).entropyDraws

/-- Of a request for bytes, only what comes before its output can draw. -/
theorem request_entropyDraws (P : Params) (n : Nat) (s : State) :
    (bytesOut P n (beginOutput P s)).2.entropyDraws =
      s.entropyDraws + if s.engine.es = .uninitialized then 1 else 0 :=
  (bytesOut_outputOnly P n _).entropyDraws.trans (beginOutput_ports P s).entropyDraws

theorem request_es (P : Params) (n : Nat) (s : State) :
    (bytesOut P n (beginOutput P s)).2.engine.es = .expanding :=
  (bytesOut_outputOnly P n _).es.trans (beginOutput_es P s)

/-- Settles O50: of a command's effects only a request for bytes draws, and ES never goes back. -/
theorem entropyAskedOnlyUnseeded : Obligations.EntropyAskedOnlyUnseeded := by
  intro i s t h
  refine ⟨?_, fun hes ht => hes (exec_uninitialized h ht).1⟩
  cases exec_effect h with
  | emptySeed => rfl
  | seed _ => exact seedBytes_entropyDraws params _ s
  | emptyRequest => simp
  | request hn => simp only [State.respond_entropyDraws, request_entropyDraws, and_iff_left hn]
  | absentBuffer _ => rfl

/-! ## The draws of a run (R226) -/

/-- The draws so far, and the one that an Uninitialized engine may still make. -/
def State.drawBudget (s : State) : Nat := s.entropyDraws + if s.engine.es = .uninitialized then 1 else 0

theorem State.drawBudget_le (s : State) : s.drawBudget ≤ s.entropyDraws + 1 := by
  unfold State.drawBudget
  split <;> omega

theorem State.drawBudget_of_ne {s : State} (h : s.engine.es ≠ .uninitialized) : s.drawBudget = s.entropyDraws :=
  congrArg (s.entropyDraws + ·) (if_neg h)

theorem State.entropyDraws_le_drawBudget (s : State) : s.entropyDraws ≤ s.drawBudget := Nat.le_add_right _ _

/-- A command gives no further draw: a request for bytes makes the one that is left, a SEED with bytes forgoes it. -/
theorem CommandEffect.drawBudget_le {i : Instr} {s t : State} (c : CommandEffect s i t) :
    t.drawBudget ≤ s.drawBudget := by
  cases c with
  | emptySeed => exact le_rfl
  | seed _ =>
    calc ((seedBytes params _ s).respond [] .ok).drawBudget
        = s.entropyDraws := (State.drawBudget_of_ne (by simp)).trans (seedBytes_entropyDraws params _ s)
      _ ≤ s.drawBudget := s.entropyDraws_le_drawBudget
  | emptyRequest => exact le_rfl
  | request _ =>
    exact ((State.drawBudget_of_ne (by simp [request_es])).trans (request_entropyDraws params _ s)).le
  | absentBuffer _ => exact le_rfl

/-- What a run without a reset keeps: the host's inputs hold none, and no more than `budget` draws come. -/
structure State.DrawsWithin (budget : Nat) (s : State) : Prop where
  noReset : HostInput.reset ∉ s.inputs
  drawBudget : s.drawBudget ≤ budget

theorem step_drawsWithin {budget : Nat} {s t : State} (h : s.DrawsWithin budget) (hstep : step s = .next t) :
    t.DrawsWithin budget := by
  obtain ⟨hreset, hbudget⟩ := h
  rcases step_cases s with ⟨-, e⟩ | ⟨rest, hs, -⟩ | ⟨d, p, rest, i, hs, -, e⟩ | ⟨d, p, rest, hs, -, e⟩ |
    ⟨d, p, rest, -, -, e⟩
  · cases e.symm.trans hstep
    exact ⟨hreset, hbudget⟩
  · exact absurd (hs ▸ List.mem_cons_self) hreset
  · rw [e] at hstep
    have later : HostInput.reset ∉ rest := fun hmem => hreset (hs ▸ List.mem_cons_of_mem _ hmem)
    exact ⟨exec_inputs hstep ▸ later, (exec_effect hstep).drawBudget_le.trans hbudget⟩
  · cases e.symm.trans hstep
    exact ⟨fun hmem => hreset (hs ▸ List.mem_cons_of_mem _ hmem), hbudget⟩
  · cases e.symm.trans hstep

/-- What every step keeps, a run keeps. -/
theorem run_keeps {I : State → Prop} (keeps : ∀ {s t : State}, I s → step s = .next t → I t) {k : Nat} {s t : State}
    (h : I s) (hrun : Sys2Proof.core.run k s = .next t) : I t := by
  induction k generalizing s with
  | zero =>
    cases hrun
    exact h
  | succ k ih =>
    cases hstep : step s with
    | next u => exact ih (keeps h hstep) (run_next hstep ▸ hrun)
    | fault f => exact nomatch f
    | refused r => cases (run_refused hstep).symm.trans hrun

/-- Settles O51: no step without a reset exceeds the budget of draws, which is at most one more than there have been. -/
theorem atMostOneDrawPerInstance : Obligations.AtMostOneDrawPerInstance := by
  intro k s t hreset hrun
  have within : t.DrawsWithin s.drawBudget := run_keeps step_drawsWithin ⟨hreset, le_rfl⟩ hrun
  calc t.entropyDraws
      ≤ t.drawBudget := t.entropyDraws_le_drawBudget
    _ ≤ s.drawBudget := within.drawBudget
    _ ≤ s.entropyDraws + 1 := s.drawBudget_le

end Sys2Proof.Machine
end

section
/-! PROOF of the statements of spec/70_reset_and_hazards.md section 1: the reset input, and waiting for the host. -/

namespace Sys2Proof.Machine

/-- On the reset input a step consumes it and resets the engine (R270, R272). -/
theorem step_of_reset {s : State} {rest : List HostInput} (hs : s.inputs = .reset :: rest) :
    step s = .next ((s.consumed rest).resetEngine params) := by
  simp only [step, acceptInput, hs, resetStep]

/-- With no input a step waits and changes nothing (R251). -/
theorem step_of_inputs_nil {s : State} (hs : s.inputs = []) : step s = .next s := by
  simp only [step, acceptInput, hs]

/-- The reset values of R36 written out, with H at the H_INIT of this hardware (R227). -/
theorem Engine.reset_params : Engine.reset params =
    { w := Vector.replicate 16 0, bc := 0
      h := #v[0x67452301, 0xEFCDAB89, 0x98BADCFE, 0x10325476, 0xC3D2E1F0]
      sl := 0, ctr := 0, oc := Vector.replicate 20 0, ocur := 20, es := .uninitialized
      hs := Vector.replicate 5 0, sbc := 0, layout := .singleBlock
      t := Vector.replicate 32 0, g := Vector.replicate 32 0 } := rfl

/-- Settles O9: the input is consumed, the ports keep their records, and the engine is the one of the reset table. -/
theorem resetInput : Obligations.ResetInput := by
  intro s rest hs
  rw [step_of_reset hs, ← Engine.reset_params]
  rfl

/-- Settles O10: `State.reset` is that state by its fields, and a step with no input waits. -/
theorem resetStateWaits : Obligations.ResetStateWaits :=
  ⟨rfl, rfl, rfl, rfl, rfl, fun _ hs => step_of_inputs_nil hs⟩

end Sys2Proof.Machine
end

section
/-! PROOF of the statement of spec/95_test_vectors.md group V-D: descriptors written out, each with its payload. -/

namespace Sys2Proof.Machine

/-- Settles O1: an upper half that is a row's gives the row's command with LEN below it; one that is no row's is illegal. -/
theorem wordsOfTheSpecDecode : Obligations.WordsOfTheSpecDecode := by
  refine ⟨?seedThree, ?seedEmpty, ?next, ?nextEmpty, ?nullEmpty, ?null, ?seedWithV, ?op0, ?op3, ?rsv32, ?rsv58⟩
  case seedThree | seedEmpty => exact decode_eq_seed_iff.mpr (by decide)
  case next | nextEmpty => exact decode_eq_nextBytes_iff.mpr (by decide)
  case null | nullEmpty => exact decode_eq_nextBytesNull_iff.mpr (by decide)
  case seedWithV | op0 | op3 | rsv32 | rsv58 => exact decode_eq_illegalDescriptor_iff.mpr (by decide)

end Sys2Proof.Machine
end
